-- ==== Sys2Proof/Word.lean ====
section
/-! DEFINITION. The words of the block (00_scope.md R13: every value is an unsigned integer of a stated width, bit 0 least
significant). Addition, multiplication, xor, or and the two logical shifts of R14 are those of `BitVec`: they wrap, and no
operation saturates, traps or sets a flag. -/

namespace Sys2Proof

/-- A message byte, `u8` (R16). -/
abbrev Byte := BitVec 8

/-- A lane or payload of 32 bits, `u32` (R9, R70). -/
abbrev Word32 := BitVec 32

/-- A lane, a length or a primitive operand of 64 bits, `u64` (R9, R10). -/
abbrev Word64 := BitVec 64

/-- A command word, `u40` (`CMD_W`, R10, R70). -/
abbrev CmdWord := BitVec 40

end Sys2Proof
end

