-- ==== Sys2Proof/Syntax.lean ====
section
/-! DEFINITION. The syntax: the thirteen commands of 30_encoding.md R75 and the four primitive operations of R90, one
constructor of `Instr` per row of spec/opcode_table.json. -/

namespace Sys2Proof

/-- The three engines, the values 0, 1, 2 of the field `eng` (30_encoding.md R72). -/
inductive EngineId where
  | e32 | e86 | e64
deriving DecidableEq, Repr

/-- The values on the primitive port's input pins (10_state.md R34, 30_encoding.md R90). -/
structure PrimPins where
  op : BitVec 2
  x : Word64
  r : BitVec 6
deriving DecidableEq, Repr

/-- The instructions. `nop` keeps the 36 bits the hardware ignores (R78), and every primitive operation keeps the whole of
`prim_x` and `prim_r`, the bits it ignores included (R90), so that no bit of an encoding is lost (log entry 11). -/
inductive Instr where
  | nop (hint : BitVec 36)
  | init32 (seed : Word32)
  | init86 (seed : Word32)
  | init64 (seed : Word32)
  | pushb32 (byte : Byte)
  | pushb86 (byte : Byte)
  | pushb64 (byte : Byte)
  | pushw32 (word : Word32)
  | pushw86 (word : Word32)
  | pushw64 (word : Word32)
  | final32
  | final86
  | final64
  | rotl32 (x : Word64) (r : BitVec 6)
  | rotl64 (x : Word64) (r : BitVec 6)
  | fmix32 (x : Word64) (r : BitVec 6)
  | fmix64 (x : Word64) (r : BitVec 6)
deriving DecidableEq, Repr

/-- The mnemonic of spec/opcode_table.json. -/
def Instr.mnemonic : Instr → String
  | .nop _ => "NOP"
  | .init32 _ => "INIT.32"
  | .init86 _ => "INIT.86"
  | .init64 _ => "INIT.64"
  | .pushb32 _ => "PUSHB.32"
  | .pushb86 _ => "PUSHB.86"
  | .pushb64 _ => "PUSHB.64"
  | .pushw32 _ => "PUSHW.32"
  | .pushw86 _ => "PUSHW.86"
  | .pushw64 _ => "PUSHW.64"
  | .final32 => "FINAL.32"
  | .final86 => "FINAL.86"
  | .final64 => "FINAL.64"
  | .rotl32 _ _ => "ROTL32"
  | .rotl64 _ _ => "ROTL64"
  | .fmix32 _ _ => "FMIX32"
  | .fmix64 _ _ => "FMIX64"

/-- The engine a command addresses; `NOP` and the primitive operations address none (R74, R90). -/
def Instr.engine : Instr → Option EngineId
  | .init32 _ | .pushb32 _ | .pushw32 _ | .final32 => some .e32
  | .init86 _ | .pushb86 _ | .pushw86 _ | .final86 => some .e86
  | .init64 _ | .pushb64 _ | .pushw64 _ | .final64 => some .e64
  | .nop _ | .rotl32 _ _ | .rotl64 _ _ | .fmix32 _ _ | .fmix64 _ _ => none

/-- What the block's two instruction ports carry: a word on the command port, or a setting of the primitive port's pins,
which is no command (30_encoding.md R90). -/
inductive PortWord where
  | command (w : CmdWord)
  | primitive (p : PrimPins)
deriving DecidableEq, Repr

end Sys2Proof
end

