-- ==== Sys2Proof/WellFormed.lean ====
section
/-! DEFINITION. Well-formedness, by the opcode map of 30_encoding.md R75: a word is a legal command exactly when it fits one
of thirteen patterns. It is written from R75's masks, not from the decoder of R76. -/

namespace Sys2Proof

/-- A row of the opcode map: `w` fits it when `w & mask = match` (R75). -/
structure OpcodeRow where
  mnemonic : String
  pattern : CmdWord
  mask : CmdWord
deriving DecidableEq, Repr

/-- The opcode map (R75). -/
def opcodeTable : List OpcodeRow :=
  [ ⟨"NOP",      0x0000000000#40, 0xF000000000#40⟩,
    ⟨"INIT.32",  0x1000000000#40, 0xFF00000000#40⟩,
    ⟨"INIT.86",  0x1400000000#40, 0xFF00000000#40⟩,
    ⟨"INIT.64",  0x1800000000#40, 0xFF00000000#40⟩,
    ⟨"PUSHB.32", 0x2000000000#40, 0xFFFFFFFF00#40⟩,
    ⟨"PUSHB.86", 0x2400000000#40, 0xFFFFFFFF00#40⟩,
    ⟨"PUSHB.64", 0x2800000000#40, 0xFFFFFFFF00#40⟩ ] ++
  [ ⟨"PUSHW.32", 0x3000000000#40, 0xFF00000000#40⟩,
    ⟨"PUSHW.86", 0x3400000000#40, 0xFF00000000#40⟩,
    ⟨"PUSHW.64", 0x3800000000#40, 0xFF00000000#40⟩,
    ⟨"FINAL.32", 0x4000000000#40, 0xFFFFFFFFFF#40⟩,
    ⟨"FINAL.86", 0x4400000000#40, 0xFFFFFFFFFF#40⟩,
    ⟨"FINAL.64", 0x4800000000#40, 0xFFFFFFFFFF#40⟩ ]

/-- Does the word fit the row? (R75) -/
def OpcodeRow.fits (r : OpcodeRow) (w : CmdWord) : Bool := w &&& r.mask == r.pattern

/-- A word on a port that stands for an instruction: a command word that fits a row of the opcode map, and every setting
of the primitive pins ("there is no illegal or reserved primitive encoding", R90). -/
def PortWord.wellFormed : PortWord → Bool
  | .command w => opcodeTable.any (·.fits w)
  | .primitive _ => true

/-- Every instruction is well-formed: its operands have exactly their widths, and the spec makes every value of every
operand legal (R74 for seed, byte and word, R78 for the hint bits of `NOP`, R90 for the primitive pins). -/
def Instr.wellFormed : Instr → Bool
  | .nop _ => true
  | .init32 _ | .init86 _ | .init64 _ => true
  | .pushb32 _ | .pushb86 _ | .pushb64 _ => true
  | .pushw32 _ | .pushw86 _ | .pushw64 _ => true
  | .final32 | .final86 | .final64 => true
  | .rotl32 _ _ | .rotl64 _ _ | .fmix32 _ _ | .fmix64 _ _ => true

end Sys2Proof
end

