-- ==== Sys2Proof/Decode.lean ====
section
/-! DEFINITION. The decoder (30_encoding.md R76, total on every 40-bit word; R90 for the primitive port) and the encoder
(R70, R94). -/

namespace Sys2Proof

/-- `op`, bits 39:36 (R70). -/
def CmdWord.op (w : CmdWord) : BitVec 4 := w.extractLsb' 36 4

/-- `eng`, bits 35:34 (R70). -/
def CmdWord.eng (w : CmdWord) : BitVec 2 := w.extractLsb' 34 2

/-- `rsv`, bits 33:32 (R70). -/
def CmdWord.rsv (w : CmdWord) : BitVec 2 := w.extractLsb' 32 2

/-- `payload`, bits 31:0 (R70). -/
def CmdWord.payload (w : CmdWord) : Word32 := w.extractLsb' 0 32

/-- The set `T` of engines a word names: one, or all three when `eng = 3` (R76). -/
inductive Target where
  | one (e : EngineId)
  | all
deriving DecidableEq, Repr

/-- Is the engine in the set? -/
def Target.has : Target → EngineId → Bool
  | .one e, e' => e == e'
  | .all, _ => true

/-- Why the decoder turns a word down: the cause codes 1, 2 and 3 (R77). -/
inductive Reject where
  | illegalOp
  | resEngine
  | resBits
deriving DecidableEq, Repr

/-- What a word decodes to: an instruction, or `Bad(T, c)` (R76). -/
inductive Decoded where
  | instr (i : Instr)
  | bad (T : Target) (c : Reject)
deriving DecidableEq, Repr

/-- The engines `eng` selects (R72, R76). -/
def targetOf (eng : BitVec 2) : Target :=
  if eng = 0#2 then .one .e32
  else if eng = 1#2 then .one .e86
  else if eng = 2#2 then .one .e64
  else .all

/-- `INIT` to an engine (R71, R74). -/
def initOf (e : EngineId) (pl : Word32) : Instr :=
  match e with
  | .e32 => .init32 pl
  | .e86 => .init86 pl
  | .e64 => .init64 pl

/-- `PUSHB` to an engine (R71, R74). -/
def pushbOf (e : EngineId) (b : Byte) : Instr :=
  match e with
  | .e32 => .pushb32 b
  | .e86 => .pushb86 b
  | .e64 => .pushb64 b

/-- `PUSHW` to an engine (R71, R74). -/
def pushwOf (e : EngineId) (pl : Word32) : Instr :=
  match e with
  | .e32 => .pushw32 pl
  | .e86 => .pushw86 pl
  | .e64 => .pushw64 pl

/-- `FINAL` to an engine (R71). -/
def finalOf (e : EngineId) : Instr :=
  match e with
  | .e32 => .final32
  | .e86 => .final86
  | .e64 => .final64

/-- `decode` on command words: the checks in the order of R76, the first that fails deciding. -/
def decode (w : CmdWord) : Decoded :=
  if w.op = 0#4 then .instr (.nop (w.extractLsb' 0 36))
  else if 4#4 < w.op then .bad (targetOf w.eng) .illegalOp
  else match targetOf w.eng with
    | .all => .bad .all .resEngine
    | .one e =>
      if w.rsv ≠ 0#2 then .bad (.one e) .resBits
      else if w.op = 2#4 ∧ w.payload.extractLsb' 8 24 ≠ 0#24 then .bad (.one e) .resBits
      else if w.op = 4#4 ∧ w.payload ≠ 0#32 then .bad (.one e) .resBits
      else if w.op = 1#4 then .instr (initOf e w.payload)
      else if w.op = 2#4 then .instr (pushbOf e (w.payload.extractLsb' 0 8))
      else if w.op = 3#4 then .instr (pushwOf e w.payload)
      else .instr (finalOf e)

/-- The primitive operation the pins select; all four values of `prim_op` are legal (R90). -/
def decodePrim (p : PrimPins) : Instr :=
  if p.op = 0#2 then .rotl32 p.x p.r
  else if p.op = 1#2 then .rotl64 p.x p.r
  else if p.op = 2#2 then .fmix32 p.x p.r
  else .fmix64 p.x p.r

/-- Decoding of either port. -/
def decodePort : PortWord → Decoded
  | .command w => decode w
  | .primitive p => .instr (decodePrim p)

/-- A command word from its fields, with `rsv = 0` (R70). -/
def commandWord (op : BitVec 4) (eng : BitVec 2) (payload : Word32) : CmdWord :=
  op ++ eng ++ 0#2 ++ payload

/-- The encoder: the port and the bits of an instruction (R70 to R74, R90, R94). -/
def encode : Instr → PortWord
  | .nop hint => .command (0#4 ++ hint)
  | .init32 s => .command (commandWord 1#4 0#2 s)
  | .init86 s => .command (commandWord 1#4 1#2 s)
  | .init64 s => .command (commandWord 1#4 2#2 s)
  | .pushb32 b => .command (commandWord 2#4 0#2 (0#24 ++ b))
  | .pushb86 b => .command (commandWord 2#4 1#2 (0#24 ++ b))
  | .pushb64 b => .command (commandWord 2#4 2#2 (0#24 ++ b))
  | .pushw32 v => .command (commandWord 3#4 0#2 v)
  | .pushw86 v => .command (commandWord 3#4 1#2 v)
  | .pushw64 v => .command (commandWord 3#4 2#2 v)
  | .final32 => .command (commandWord 4#4 0#2 0#32)
  | .final86 => .command (commandWord 4#4 1#2 0#32)
  | .final64 => .command (commandWord 4#4 2#2 0#32)
  | .rotl32 x r => .primitive ⟨0#2, x, r⟩
  | .rotl64 x r => .primitive ⟨1#2, x, r⟩
  | .fmix32 x r => .primitive ⟨2#2, x, r⟩
  | .fmix64 x r => .primitive ⟨3#2, x, r⟩

/-- The port and bits that a word of the opcode table stands for, its bits numbered as the table numbers them. A row of 40
bits is a command word. A shorter one is of format P: `prim_op` in bits 1:0 as the table has it, and above it, DESIGN
CHOICE since the pins have no packing in the spec, `prim_r` in bits 7:2 and `prim_x` in bits 71:8 (log entry 3). -/
def PortWord.ofTable (nbits w : Nat) : PortWord :=
  if nbits < 40 then
    .primitive ⟨BitVec.ofNat 2 w, BitVec.ofNat 64 (w / 256), BitVec.ofNat 6 (w / 4)⟩
  else .command (BitVec.ofNat 40 w)

/-- The instruction the decoder reads from a word of the opcode table, none where it is a decode fault. -/
def decodeTableWord (nbits w : Nat) : Option Instr :=
  match decodePort (PortWord.ofTable nbits w) with
  | .instr i => some i
  | .bad _ _ => none

end Sys2Proof
end

