-- ==== Sys2Proof/Config.lean ====
section
/-! DEFINITION. What is fixed for the machine, and the one free value of the model.
The spec leaves no parameter open (92_eei_decisions.md, 00_scope.md R9 and R10). -/

namespace Sys2Proof.Config

/-- The longest message, `2^LEN_W - 1` bytes with `LEN_W = 64` (R10, R12). -/
def lenMax : Nat := 18446744073709551615

/-- What an output port shows in a cycle in which the spec leaves it unspecified (R233, U5): any value of 64 bits, of which
a narrower port shows the low ones. The first argument is the port's number in `OutPorts`, the second the step count.
It has no body on purpose: nothing can be proved of its value (log entry 7). -/
opaque unspecifiedPort : Nat → Nat → Word64

end Sys2Proof.Config
end

