-- ==== Sys2Proof/Machine/State.lean ====
section
/-! DEFINITION. The state (10_state.md R20 to R37), the state after reset, and the reasons a step can stop. -/

namespace Sys2Proof.Machine

/-- An engine's sequencing state (R27, R28). -/
inductive Phase where
  | idle | absorb | done | fault
deriving DecidableEq, Repr

/-- The six fault codes (60_exceptions.md R201); code 0 is the absence of one and code 7 is never produced (R29). -/
inductive Cause where
  | illegalOp | resEngine | resBits | pushPhase | finalPhase | lenOverflow
deriving DecidableEq, Repr

/-- The four lanes of `E86` (R24). -/
structure Lanes86 where
  h1 : Word32
  h2 : Word32
  h3 : Word32
  h4 : Word32
deriving DecidableEq, Repr

/-- The two lanes of `E64` (R24). -/
structure Lanes64 where
  h1 : Word64
  h2 : Word64
deriving DecidableEq, Repr

/-- An engine record with lanes `L` and a block of `B` bytes (R21, R22, R23). `cause` is none for code 0 (R29); `fill` counts
0 to `B-1` (R30; log entry 17). -/
structure Engine (L : Type) (B : Nat) where
  phase : Phase
  cause : Option Cause
  h : L
  buf : Vector Byte B
  fill : Fin B
  len : Word64
deriving DecidableEq, Repr

/-- The buffer with every byte zero. -/
abbrev zeroBuf (B : Nat) : Vector Byte B := Vector.replicate B 0#8

/-- `E32`: one lane `h1`, four bytes (R21). -/
abbrev Engine32 := Engine Word32 4
/-- `E86`: four 32-bit lanes, sixteen bytes (R22). -/
abbrev Engine86 := Engine Lanes86 16
/-- `E64`: two 64-bit lanes, sixteen bytes (R23). -/
abbrev Engine64 := Engine Lanes64 16

/-- What the host does next: a rising edge of `clk` with the values its pins have there (70_reset_and_hazards.md R230,
R231, R232), or a change of the primitive port's pins, which no clock samples (40_primitives.md R114; log entry 12). -/
inductive HostAct where
  | edge (rst valid : Bool) (cmd : CmdWord)
  | prim (p : PrimPins)
deriving DecidableEq, Repr

/-- The state. `e32`, `e86`, `e64` are the whole architectural state of the block (R20). `busy`, `afterReset` and `waiting`
are the handshake (R231, R232). `pins` and `plan` are the host's side of the ports and no register of the block (R34, R36;
log entries 1 and 2). `stalls` and `tick` are the model's own: the cycles the steps to come will take, and the count of
steps (log entries 5 and 7). -/
structure State where
  e32 : Engine32
  e86 : Engine86
  e64 : Engine64
  busy : Nat
  afterReset : Bool
  waiting : Option CmdWord
  pins : PrimPins
  plan : List HostAct
  stalls : List Nat
  tick : Nat
deriving DecidableEq, Repr

/-- The reasons the machine stops with a fault: none. Every word has a defined effect in every state and no state is stuck
(44_command_layer.md R192); the protocol faults of 60_exceptions.md are next states (log entry 18). -/
inductive Fault : Type
deriving DecidableEq, Repr

/-- The reasons for a refusal. -/
inductive Refusal where
  /-- Raised by an arm of `exec` for an instruction that has no meaning yet; no arm does. Safe. -/
  | notModelled (mnemonic : String)
  /-- Raised by an edge at which the host has withdrawn or changed a word it had presented and that was not accepted: "a
  host error whose effect is not specified" (R232; U7 asks a model to refuse). Safe. -/
  | hostBrokeHandshake
deriving DecidableEq, Repr

/-- The reset value of an engine whose lanes are all zero at `h` (R37). -/
def Engine.resetTo {L : Type} {B : Nat} [NeZero B] (h : L) : Engine L B :=
  ⟨.idle, none, h, zeroBuf B, 0, 0#64⟩

/-- `E32` after reset (R37). -/
abbrev Engine32.reset : Engine32 := Engine.resetTo 0#32
/-- `E86` after reset (R37). -/
abbrev Engine86.reset : Engine86 := Engine.resetTo ⟨0#32, 0#32, 0#32, 0#32⟩
/-- `E64` after reset (R37). -/
abbrev Engine64.reset : Engine64 := Engine.resetTo ⟨0#64, 0#64⟩

/-- The state right after a reset edge (R37, R231): every engine field zero, quiescent. The host's pins, its plan and the
model's own fields are at values the log names (log entries 1, 2, 5, 6, 7). -/
def State.reset : State :=
  ⟨Engine32.reset, Engine86.reset, Engine64.reset, 0, true, none, ⟨0#2, 0#64, 0#6⟩, [], [], 0⟩

end Sys2Proof.Machine
end

