-- ==== Sys2Proof/Machine/Operands.lean ====
section
/-! DEFINITION. Operands: little-endian decoding of byte sequences (00_scope.md R16, 20_memory.md R54 to R56), the bytes of a
`PUSHW` payload, the operand bits of the primitive port (30_encoding.md R90). -/

namespace Sys2Proof.Machine

/-- `le_n`: the sum of `b[i] * 2^(8*i)` (R16). -/
def leNat : List Byte → Nat
  | [] => 0
  | b :: bs => b.toNat + 256 * leNat bs

/-- `le_n` of the bytes as a word of `W` bits; bits no byte covers are zero (R16, R55). -/
def leWord (W : Nat) (bs : List Byte) : BitVec W := BitVec.ofNat W (leNat bs)

/-- The `n` bytes from offset `lo`, fewer where the sequence ends before (R54, R55). -/
def slice (bs : List Byte) (lo n : Nat) : List Byte := (bs.drop lo).take n

/-- The bytes a `PUSHW` pushes, in order: the low byte of the payload first (R56, R74). -/
def payloadBytes (v : Word32) : List Byte :=
  [v.extractLsb' 0 8, v.extractLsb' 8 8, v.extractLsb' 16 8, v.extractLsb' 24 8]

/-- `prim_x[31:0]` (R90). -/
def primX32 (x : Word64) : Word32 := x.extractLsb' 0 32

/-- `prim_r[4:0]` as a rotate amount of a 32-bit word; `prim_r[5]` is ignored (40_primitives.md R110). -/
def primR32 (r : BitVec 6) : Fin 32 := (r.extractLsb' 0 5).toFin

/-- `prim_r[5:0]` as a rotate amount of a 64-bit word (R111). -/
def primR64 (r : BitVec 6) : Fin 64 := r.toFin

end Sys2Proof.Machine
end

