-- ==== Sys2Proof/Machine/Primitives.lean ====
section
/-! DEFINITION. The primitive library (40_primitives.md R100 to R103) and the four operations of the primitive port (R110 to
R113). -/

namespace Sys2Proof.Machine

/-- `rotl32` (R100); its domain `0 <= r < 32` is the type of `r` (log entry 10). -/
def rotl32 (x : Word32) (r : Fin 32) : Word32 :=
  if r = 0 then x else (x <<< r.val) ||| (x >>> (32 - r.val))

/-- `rotl64` (R101). -/
def rotl64 (x : Word64) (r : Fin 64) : Word64 :=
  if r = 0 then x else (x <<< r.val) ||| (x >>> (64 - r.val))

/-- `fmix32` (R102). -/
def fmix32 (h : Word32) : Word32 :=
  let a := h ^^^ (h >>> 16)
  let b := a * 0x85EBCA6B#32
  let c := b ^^^ (b >>> 13)
  let d := c * 0xC2B2AE35#32
  d ^^^ (d >>> 16)

/-- `fmix64` (R103). -/
def fmix64 (h : Word64) : Word64 :=
  let a := h ^^^ (h >>> 33)
  let b := a * 0xFF51AFD7ED558CCD#64
  let c := b ^^^ (b >>> 33)
  let d := c * 0xC4CEB9FE1A85EC53#64
  d ^^^ (d >>> 33)

/-- What `ROTL32` computes on the pins (R110). -/
def primRotl32 (x : Word64) (r : BitVec 6) : Word64 := (rotl32 (primX32 x) (primR32 r)).setWidth 64

/-- What `ROTL64` computes on the pins (R111). -/
def primRotl64 (x : Word64) (r : BitVec 6) : Word64 := rotl64 x (primR64 r)

/-- What `FMIX32` computes on the pins; `prim_r` is ignored (R112). -/
def primFmix32 (x : Word64) : Word64 := (fmix32 (primX32 x)).setWidth 64

/-- What `FMIX64` computes on the pins; `prim_r` is ignored (R113). -/
def primFmix64 (x : Word64) : Word64 := fmix64 x

/-- The combinational unit: `prim_y` as a function of the three input pins and nothing else (R90, R114). -/
def primOut (p : PrimPins) : Word64 :=
  if p.op = 0#2 then primRotl32 p.x p.r
  else if p.op = 1#2 then primRotl64 p.x p.r
  else if p.op = 2#2 then primFmix32 p.x
  else primFmix64 p.x

/-- The output port `prim_y` (R34, R114): computed from the present pins, stored nowhere (R20, R36). -/
def State.primY (s : State) : Word64 := primOut s.pins

/-- The input pins of the primitive port take new values; no engine is disturbed (R90, section 3 of 40_primitives.md). -/
def State.drivePins (s : State) (p : PrimPins) : State := { s with pins := p }

/-- `ROTL32` (R110): with these pins `prim_y` is `primRotl32 x r`. -/
def execRotl32 (x : Word64) (r : BitVec 6) (s : State) : Host.Outcome State Fault Refusal :=
  .next (s.drivePins ⟨0#2, x, r⟩)

/-- `ROTL64` (R111): with these pins `prim_y` is `primRotl64 x r`. -/
def execRotl64 (x : Word64) (r : BitVec 6) (s : State) : Host.Outcome State Fault Refusal :=
  .next (s.drivePins ⟨1#2, x, r⟩)

/-- `FMIX32` (R112): with these pins `prim_y` is `primFmix32 x`. -/
def execFmix32 (x : Word64) (r : BitVec 6) (s : State) : Host.Outcome State Fault Refusal :=
  .next (s.drivePins ⟨2#2, x, r⟩)

/-- `FMIX64` (R113): with these pins `prim_y` is `primFmix64 x`. -/
def execFmix64 (x : Word64) (r : BitVec 6) (s : State) : Host.Outcome State Fault Refusal :=
  .next (s.drivePins ⟨3#2, x, r⟩)

end Sys2Proof.Machine
end

