-- ==== Sys2Proof/Machine/Hash.lean ====
section
/-! DEFINITION. The three hash computations as pure functions: 41_engine32.md R120 to R126, 42_engine128_x86.md R140 to R147,
43_engine128_x64.md R160 to R167. The statements of a step run in the order written (R17, R62, R146, R166). -/

namespace Sys2Proof.Machine

/-- Fold `nb` blocks of `B` bytes from the front of a message into the lanes, in increasing order (R52; the loop of R126,
R147, R167). -/
def absorbBlocks {L : Type} (B : Nat) (block : L → List Byte → L) : Nat → L → List Byte → L
  | 0, h, _ => h
  | nb + 1, h, m => absorbBlocks B block nb (block h (m.take B)) (m.drop B)

/-! ### The 32-bit engine -/

/-- R121. -/
def init32 (seed : Word32) : Word32 := seed

/-- The scramble of a decoded word (R122; constants R120). -/
def kmix32 (k : Word32) : Word32 :=
  rotl32 (k * 0xCC9E2D51#32) 15 * 0x1B873593#32

/-- The block step on a decoded word (R123). -/
def round32 (h k : Word32) : Word32 :=
  rotl32 (h ^^^ kmix32 k) 13 * 5#32 + 0xE6546B64#32

/-- The block step on the four bytes of a block (R54, R123). -/
def block32 (h : Word32) (b : List Byte) : Word32 := round32 h (leWord 32 (slice b 0 4))

/-- The tail step (R124). -/
def tail32 (h : Word32) (t : List Byte) : Word32 :=
  if t.length = 0 then h else h ^^^ kmix32 (leWord 32 t)

/-- The finalization; `N` is truncated to the lane (R125). -/
def final32 (h : Word32) (N : Word64) : Word32 := fmix32 (h ^^^ N.setWidth 32)

/-- The document's `hash32` (R126). For a message of 2^64 bytes or more the finalization takes `N` modulo 2^64, DESIGN
CHOICE: the spec types `N` as `u64` and no command sequence pushes so many bytes (log entry 19). -/
def hash32 (m : List Byte) (seed : Word32) : Word32 :=
  let nb := m.length / 4
  let h := absorbBlocks 4 block32 nb (init32 seed) m
  final32 (tail32 h (m.drop (4 * nb))) (BitVec.ofNat 64 m.length)

/-! ### The 128-bit x86 engine -/

/-- R141. -/
def init86 (seed : Word32) : Lanes86 := ⟨seed, seed, seed, seed⟩

/-- R142, lane 1; constants R140. -/
def kmix86a (k : Word32) : Word32 := rotl32 (k * 0x239B961B#32) 15 * 0xAB0E9789#32
/-- R142, lane 2. -/
def kmix86b (k : Word32) : Word32 := rotl32 (k * 0xAB0E9789#32) 16 * 0x38B34AE5#32
/-- R142, lane 3. -/
def kmix86c (k : Word32) : Word32 := rotl32 (k * 0x38B34AE5#32) 17 * 0xA1E38B93#32
/-- R142, lane 4. -/
def kmix86d (k : Word32) : Word32 := rotl32 (k * 0xA1E38B93#32) 18 * 0x239B961B#32

/-- The block step on decoded words (R143): lanes 1 to 3 add the old neighbour, lane 4 the new `h1` (R146). -/
def round86 (h : Lanes86) (k1 k2 k3 k4 : Word32) : Lanes86 :=
  let h1 := (rotl32 (h.h1 ^^^ kmix86a k1) 19 + h.h2) * 5#32 + 0x561CCD1B#32
  let h2 := (rotl32 (h.h2 ^^^ kmix86b k2) 17 + h.h3) * 5#32 + 0x0BCAA747#32
  let h3 := (rotl32 (h.h3 ^^^ kmix86c k3) 15 + h.h4) * 5#32 + 0x96CD1C35#32
  let h4 := (rotl32 (h.h4 ^^^ kmix86d k4) 13 + h1) * 5#32 + 0x32AC3B17#32
  ⟨h1, h2, h3, h4⟩

/-- The block step on the sixteen bytes of a block (R54, R143). -/
def block86 (h : Lanes86) (b : List Byte) : Lanes86 :=
  round86 h (leWord 32 (slice b 0 4)) (leWord 32 (slice b 4 4)) (leWord 32 (slice b 8 4)) (leWord 32 (slice b 12 4))

/-- The tail step: each lane that received any bytes, from its own slice of the tail (R144). -/
def tail86 (h : Lanes86) (t : List Byte) : Lanes86 :=
  let n := t.length
  { h4 := if 12 < n then h.h4 ^^^ kmix86d (leWord 32 (t.drop 12)) else h.h4
    h3 := if 8 < n then h.h3 ^^^ kmix86c (leWord 32 (slice t 8 4)) else h.h3
    h2 := if 4 < n then h.h2 ^^^ kmix86b (leWord 32 (slice t 4 4)) else h.h2
    h1 := if 0 < n then h.h1 ^^^ kmix86a (leWord 32 (slice t 0 4)) else h.h1 }

/-- The cross-addition: lanes 2 to 4 add the new `h1` (R145). -/
def sum86 (h : Lanes86) : Lanes86 :=
  let s := h.h1 + h.h2 + h.h3 + h.h4
  ⟨s, h.h2 + s, h.h3 + s, h.h4 + s⟩

/-- The finalization (R145); `N` is truncated to the lanes. -/
def final86 (h : Lanes86) (N : Word64) : Lanes86 :=
  let n32 : Word32 := N.setWidth 32
  let x := sum86 ⟨h.h1 ^^^ n32, h.h2 ^^^ n32, h.h3 ^^^ n32, h.h4 ^^^ n32⟩
  sum86 ⟨fmix32 x.h1, fmix32 x.h2, fmix32 x.h3, fmix32 x.h4⟩

/-- The document's `hash128x86` (R147). For a message of 2^64 bytes or more the finalization takes `N` modulo 2^64, DESIGN
CHOICE: the spec types `N` as `u64` and no command sequence pushes so many bytes (log entry 19). -/
def hash128x86 (m : List Byte) (seed : Word32) : Lanes86 :=
  let nb := m.length / 16
  let h := absorbBlocks 16 block86 nb (init86 seed) m
  final86 (tail86 h (m.drop (16 * nb))) (BitVec.ofNat 64 m.length)

/-! ### The 128-bit x64 engine -/

/-- R161: the seed zero-extended. -/
def init64 (seed : Word32) : Lanes64 := ⟨seed.setWidth 64, seed.setWidth 64⟩

/-- R162, lane 1; constants R160. -/
def kmix64a (k : Word64) : Word64 := rotl64 (k * 0x87C37B91114253D5#64) 31 * 0x4CF5AD432745937F#64
/-- R162, lane 2. -/
def kmix64b (k : Word64) : Word64 := rotl64 (k * 0x4CF5AD432745937F#64) 33 * 0x87C37B91114253D5#64

/-- The block step on decoded words (R163): lane 1 adds the old `h2`, lane 2 the new `h1` (R166). -/
def round64 (h : Lanes64) (k1 k2 : Word64) : Lanes64 :=
  let h1 := (rotl64 (h.h1 ^^^ kmix64a k1) 27 + h.h2) * 5#64 + 0x52DCE729#64
  let h2 := (rotl64 (h.h2 ^^^ kmix64b k2) 31 + h1) * 5#64 + 0x38495AB5#64
  ⟨h1, h2⟩

/-- The block step on the sixteen bytes of a block (R54, R163). -/
def block64 (h : Lanes64) (b : List Byte) : Lanes64 :=
  round64 h (leWord 64 (slice b 0 8)) (leWord 64 (slice b 8 8))

/-- The tail step (R164). -/
def tail64 (h : Lanes64) (t : List Byte) : Lanes64 :=
  let n := t.length
  { h2 := if 8 < n then h.h2 ^^^ kmix64b (leWord 64 (t.drop 8)) else h.h2
    h1 := if 0 < n then h.h1 ^^^ kmix64a (leWord 64 (slice t 0 8)) else h.h1 }

/-- The cross-addition: lane 2 adds the new `h1` (R165). -/
def sum64 (h : Lanes64) : Lanes64 :=
  let s := h.h1 + h.h2
  ⟨s, h.h2 + s⟩

/-- The finalization; `N` whole (R165). -/
def final64 (h : Lanes64) (N : Word64) : Lanes64 :=
  let x := sum64 ⟨h.h1 ^^^ N, h.h2 ^^^ N⟩
  sum64 ⟨fmix64 x.h1, fmix64 x.h2⟩

/-- The document's `hash128x64` (R167). For a message of 2^64 bytes or more the finalization takes `N` modulo 2^64, DESIGN
CHOICE: the spec types `N` as `u64` and no command sequence pushes so many bytes (log entry 19). -/
def hash128x64 (m : List Byte) (seed : Word32) : Lanes64 :=
  let nb := m.length / 16
  let h := absorbBlocks 16 block64 nb (init64 seed) m
  final64 (tail64 h (m.drop (16 * nb))) (BitVec.ofNat 64 m.length)

end Sys2Proof.Machine
end

