-- ==== Sys2Proof/Machine/Ops.lean ====
section
/-! DEFINITION. The operations the commands share: taking a fault (60_exceptions.md R202), the `FAULT` test of dispatch
(44_command_layer.md R183), opening a message, pushing bytes, finalizing, for any engine. An engine is given by its lane type
`L`, its block size `B` and its functions. -/

namespace Sys2Proof.Machine

/-! ### Taking a fault -/

/-- An engine takes a fault: phase and cause, nothing else, and nothing at all if it is in `FAULT` already (R202). -/
def Engine.takeFault {L : Type} {B : Nat} (c : Cause) (e : Engine L B) : Engine L B :=
  if e.phase = .fault then e else { e with phase := .fault, cause := some c }

/-- `raise Fault(T, c)` (R202). There is no return from a fault; only reset leaves it (R205). -/
def State.raiseFault (T : Target) (c : Cause) (s : State) : State :=
  { s with
    e32 := if T.has .e32 then s.e32.takeFault c else s.e32
    e86 := if T.has .e86 then s.e86.takeFault c else s.e86
    e64 := if T.has .e64 then s.e64.takeFault c else s.e64 }

/-- The cause code of a decode fault (30_encoding.md R77). -/
def rejectCause : Reject → Cause
  | .illegalOp => .illegalOp
  | .resEngine => .resEngine
  | .resBits => .resBits

/-! ### The commands of one engine -/

/-- Dispatch to an engine: one in `FAULT` is left as it is (R183, R184). -/
def Engine.unlessFault {L : Type} {B : Nat} (f : Engine L B → Engine L B) (e : Engine L B) : Engine L B :=
  if e.phase = .fault then e else f e

/-- `INIT` (R130, R150, R170): the seed lanes, an empty buffer, length 0, phase `ABSORB`; `cause` is not written. -/
def Engine.openMessage {L : Type} {B : Nat} [NeZero B] (h : L) (e : Engine L B) : Engine L B :=
  { e with phase := .absorb, h := h, buf := zeroBuf B, fill := 0, len := 0#64 }

/-- `push32`, `push86`, `push64` of R131, R151, R171: one byte into the buffer, and the block step when it is full. -/
def Engine.pushByte {L : Type} {B : Nat} [NeZero B] (block : L → List Byte → L) (b : Byte) (e : Engine L B) : Engine L B :=
  let buf := e.buf.set e.fill.val b e.fill.isLt
  if hf : e.fill.val + 1 < B then
    { e with buf := buf, fill := ⟨e.fill.val + 1, hf⟩, len := e.len + 1#64 }
  else
    { e with h := block e.h buf.toList, buf := zeroBuf B, fill := 0, len := e.len + 1#64 }

/-- Several bytes, the first first (R132, R152, R172). -/
def Engine.pushBytes {L : Type} {B : Nat} [NeZero B] (block : L → List Byte → L) (bs : List Byte) (e : Engine L B) :
    Engine L B :=
  bs.foldl (fun e b => e.pushByte block b) e

/-- `PUSHB` and `PUSHW` (R131, R132 and their counterparts): the phase test, then the length test (R207, R208), made once
for all the bytes, then the bytes. -/
def Engine.push {L : Type} {B : Nat} [NeZero B] (block : L → List Byte → L) (bs : List Byte) (e : Engine L B) :
    Engine L B :=
  if e.phase ≠ .absorb then e.takeFault .pushPhase
  else if Config.lenMax < e.len.toNat + bs.length then e.takeFault .lenOverflow
  else e.pushBytes block bs

/-- The tail: the bytes `buf[0 .. fill-1]` (R133). -/
def Engine.tail {L : Type} {B : Nat} (e : Engine L B) : List Byte := e.buf.toList.take e.fill.val

/-- `FINAL` (R133, R153, R173): the phase test (R209), then the digest of lanes, tail and length into the lanes, an empty
buffer, phase `DONE`; `len` keeps `N`. -/
def Engine.finalize {L : Type} {B : Nat} [NeZero B] (digest : L → List Byte → Word64 → L) (e : Engine L B) :
    Engine L B :=
  if e.phase ≠ .absorb then e.takeFault .finalPhase
  else { e with phase := .done, h := digest e.h e.tail e.len, buf := zeroBuf B, fill := 0 }

/-- Tail step and finalization of `E32` (R133). -/
def digest32 (h : Word32) (t : List Byte) (N : Word64) : Word32 := final32 (tail32 h t) N

/-- Tail step and finalization of `E86` (R153). -/
def digest86 (h : Lanes86) (t : List Byte) (N : Word64) : Lanes86 := final86 (tail86 h t) N

/-- Tail step and finalization of `E64` (R173). -/
def digest64 (h : Lanes64) (t : List Byte) (N : Word64) : Lanes64 := final64 (tail64 h t) N

/-! ### Commands address one engine (44_command_layer.md R196) -/

/-- A command to `E32`: nothing else changes. -/
def State.onE32 (f : Engine32 → Engine32) (s : State) : State := { s with e32 := (s.e32).unlessFault f }

/-- A command to `E86`: nothing else changes. -/
def State.onE86 (f : Engine86 → Engine86) (s : State) : State := { s with e86 := (s.e86).unlessFault f }

/-- A command to `E64`: nothing else changes. -/
def State.onE64 (f : Engine64 → Engine64) (s : State) : State := { s with e64 := (s.e64).unlessFault f }

/-! ### Reset -/

/-- A reset edge: every engine field at its reset value, a step in progress abandoned, `cmd_ready` back to 1
(70_reset_and_hazards.md R231), no word waiting (log entry 6). The primitive pins are not touched (40_primitives.md R114). -/
def State.applyReset (s : State) : State :=
  { s with e32 := Engine32.reset, e86 := Engine86.reset, e64 := Engine64.reset, busy := 0, afterReset := true, waiting := none }

end Sys2Proof.Machine
end

