-- ==== Sys2Proof/Machine/CommandLayer.lean ====
section
/-! DEFINITION. The command layer (44_command_layer.md): `NOP`, and how a step comes by the word it runs
(70_reset_and_hazards.md R230 to R236). -/

namespace Sys2Proof.Machine

/-- `NOP` (R185): no state change, whatever the 36 ignored bits hold (30_encoding.md R78). -/
def execNop (s : State) : Host.Outcome State Fault Refusal := .next s

/-- What the host's next action brings: an instruction port's bits to run in a state, a state in which nothing was
accepted, or a refusal. -/
inductive Fetched where
  | run (p : PortWord) (s : State)
  | quiet (s : State)
  | refuse (r : Refusal)
deriving DecidableEq, Repr

/-- The output port `cmd_ready` (R232). -/
def State.cmdReady (s : State) : Bool := s.busy == 0

/-- Has the host withdrawn or changed a word it must keep? (R232; log entries 9 and 14) -/
def State.breaksHandshake (s : State) (valid : Bool) (cmd : CmdWord) : Bool :=
  match s.waiting with
  | none => false
  | some w => !(valid && cmd == w)

/-- The handshake after a word is accepted: it is no longer waiting, and `cmd_ready` stays 0 for the number of cycles the
implementation takes, which the spec leaves open (R232, R240; log entry 5). The engines take the effect of the word at this
same edge (log entry 13). -/
def State.accept (s : State) : State :=
  { s with busy := s.stalls.headD 0, stalls := s.stalls.tail, afterReset := false, waiting := none }

/-- An edge at which `cmd_ready` is 0: nothing is accepted, one cycle of the step has passed, and a word presented waits
(R232). -/
def State.stall (s : State) (valid : Bool) (cmd : CmdWord) : State :=
  { s with busy := s.busy - 1, afterReset := false, waiting := if valid then some cmd else none }

/-- An edge at which no word is presented and none is in progress: no engine field changes (R236). -/
def State.hold (s : State) : State := { s with afterReset := false }

/-- A rising edge of `clk` (R231, R232, R236): reset first, then the host's duty to keep a waiting word, then
acceptance. -/
def clockEdge (rst valid : Bool) (cmd : CmdWord) (s : State) : Fetched :=
  if rst then .quiet s.applyReset
  else if s.breaksHandshake valid cmd then .refuse .hostBrokeHandshake
  else if s.cmdReady then
    if valid then .run (.command cmd) s.accept else .quiet s.hold
  else .quiet (s.stall valid cmd)

/-- The host's next action. Where its plan is at an end the clock goes on and the host keeps its pins: it presents the word
that waits, if one does (R232, log entry 4). -/
def State.nextAct (s : State) : HostAct :=
  match s.plan with
  | a :: _ => a
  | [] => .edge false s.waiting.isSome (s.waiting.getD 0#40)

/-- The host's next action is under way: it leaves the plan and the step is counted. -/
def State.advance (s : State) : State := { s with plan := s.plan.tail, tick := s.tick + 1 }

/-- What the next step runs. -/
def fetch (s : State) : Fetched :=
  match s.nextAct with
  | .prim p => .run (.primitive p) s.advance
  | .edge rst valid cmd => clockEdge rst valid cmd s.advance

/-- The state in which the bits on a port are what the next step runs: the host's next action presents them, with
`cmd_ready = 1` and no other word waiting. -/
def State.withPort (s : State) (p : PortWord) : State :=
  match p with
  | .command w => { s with plan := .edge false true w :: s.plan, busy := 0, waiting := none }
  | .primitive q => { s with plan := .prim q :: s.plan }

end Sys2Proof.Machine
end

