-- ==== Sys2Proof/Machine/Engine32.lean ====
section
/-! DEFINITION. The commands of `E32` (41_engine32.md). -/

namespace Sys2Proof.Machine

/-- `INIT.32` (R130). -/
def execInit32 (seed : Word32) (s : State) : Host.Outcome State Fault Refusal :=
  .next (s.onE32 (Engine.openMessage (init32 seed)))

/-- `PUSHB.32` (R131). -/
def execPushb32 (byte : Byte) (s : State) : Host.Outcome State Fault Refusal :=
  .next (s.onE32 (Engine.push block32 [byte]))

/-- `PUSHW.32` (R132). -/
def execPushw32 (word : Word32) (s : State) : Host.Outcome State Fault Refusal :=
  .next (s.onE32 (Engine.push block32 (payloadBytes word)))

/-- `FINAL.32` (R133). -/
def execFinal32 (s : State) : Host.Outcome State Fault Refusal :=
  .next (s.onE32 (Engine.finalize digest32))

end Sys2Proof.Machine
end

