-- ==== Sys2Proof/Machine/Engine64.lean ====
section
/-! DEFINITION. The commands of `E64` (43_engine128_x64.md). -/

namespace Sys2Proof.Machine

/-- `INIT.64` (R170). -/
def execInit64 (seed : Word32) (s : State) : Host.Outcome State Fault Refusal :=
  .next (s.onE64 (Engine.openMessage (init64 seed)))

/-- `PUSHB.64` (R171). -/
def execPushb64 (byte : Byte) (s : State) : Host.Outcome State Fault Refusal :=
  .next (s.onE64 (Engine.push block64 [byte]))

/-- `PUSHW.64` (R172). -/
def execPushw64 (word : Word32) (s : State) : Host.Outcome State Fault Refusal :=
  .next (s.onE64 (Engine.push block64 (payloadBytes word)))

/-- `FINAL.64` (R173). -/
def execFinal64 (s : State) : Host.Outcome State Fault Refusal :=
  .next (s.onE64 (Engine.finalize digest64))

end Sys2Proof.Machine
end

