-- ==== Sys2Proof/Machine/Engine86.lean ====
section
/-! DEFINITION. The commands of `E86` (42_engine128_x86.md). -/

namespace Sys2Proof.Machine

/-- `INIT.86` (R150). -/
def execInit86 (seed : Word32) (s : State) : Host.Outcome State Fault Refusal :=
  .next (s.onE86 (Engine.openMessage (init86 seed)))

/-- `PUSHB.86` (R151). -/
def execPushb86 (byte : Byte) (s : State) : Host.Outcome State Fault Refusal :=
  .next (s.onE86 (Engine.push block86 [byte]))

/-- `PUSHW.86` (R152). -/
def execPushw86 (word : Word32) (s : State) : Host.Outcome State Fault Refusal :=
  .next (s.onE86 (Engine.push block86 (payloadBytes word)))

/-- `FINAL.86` (R153). -/
def execFinal86 (s : State) : Host.Outcome State Fault Refusal :=
  .next (s.onE86 (Engine.finalize digest86))

end Sys2Proof.Machine
end

