-- ==== Sys2Proof/Machine/Dispatch.lean ====
section
/-! DEFINITION. One arm per instruction (44_command_layer.md R183 for the commands, 30_encoding.md R90 for the primitive
operations). -/

namespace Sys2Proof.Machine

def exec (i : Instr) (s : State) : Host.Outcome State Fault Refusal :=
  match i with
  | .nop _ => Sys2Proof.Machine.execNop s
  | .init32 seed => Sys2Proof.Machine.execInit32 seed s
  | .init86 seed => Sys2Proof.Machine.execInit86 seed s
  | .init64 seed => Sys2Proof.Machine.execInit64 seed s
  | .pushb32 byte => Sys2Proof.Machine.execPushb32 byte s
  | .pushb86 byte => Sys2Proof.Machine.execPushb86 byte s
  | .pushb64 byte => Sys2Proof.Machine.execPushb64 byte s
  | .pushw32 word => Sys2Proof.Machine.execPushw32 word s
  | .pushw86 word => Sys2Proof.Machine.execPushw86 word s
  | .pushw64 word => Sys2Proof.Machine.execPushw64 word s
  | .final32 => Sys2Proof.Machine.execFinal32 s
  | .final86 => Sys2Proof.Machine.execFinal86 s
  | .final64 => Sys2Proof.Machine.execFinal64 s
  | .rotl32 x r => Sys2Proof.Machine.execRotl32 x r s
  | .rotl64 x r => Sys2Proof.Machine.execRotl64 x r s
  | .fmix32 x r => Sys2Proof.Machine.execFmix32 x r s
  | .fmix64 x r => Sys2Proof.Machine.execFmix64 x r s

end Sys2Proof.Machine
end

