-- ==== Sys2Proof/Machine/Step.lean ====
section
/-! DEFINITION. One step: the host's next action (a rising edge of `clk`, or a change of the primitive pins), and the
instruction it brings, if any (44_command_layer.md R181, R183). -/

namespace Sys2Proof.Machine

/-- The bits on an instruction port take effect: an instruction runs, a decode fault is taken (R183). -/
def runPort (p : PortWord) (s : State) : Host.Outcome State Fault Refusal :=
  match decodePort p with
  | .instr i => exec i s
  | .bad T c => .next (s.raiseFault T (rejectCause c))

/-- One step. -/
def step (s : State) : Host.Outcome State Fault Refusal :=
  match fetch s with
  | .run p s' => runPort p s'
  | .quiet s' => .next s'
  | .refuse r => .refused r

/-- The state whose next step runs exactly the instruction of a word of the opcode table (log entries 1 and 3). -/
def State.withFetchWord (s : State) (nbits w : Nat) : State := s.withPort (PortWord.ofTable nbits w)

end Sys2Proof.Machine
end

