-- ==== Sys2Proof/Machine/Flags.lean ====
section
/-! DEFINITION. The block has no condition codes (10_state.md R33, 00_scope.md R14). Here are the three status names R33 defines
as functions of the phase, and the codes of the phase and of the cause as the ports show them (R27, R29, 60_exceptions.md
R201). -/

namespace Sys2Proof.Machine

/-- `E.done` (R33). -/
def Engine.isDone {L : Type} {B : Nat} (e : Engine L B) : Bool := e.phase == .done

/-- `E.fault` (R33). -/
def Engine.isFault {L : Type} {B : Nat} (e : Engine L B) : Bool := e.phase == .fault

/-- `E.absorbing` (R33). -/
def Engine.isAbsorbing {L : Type} {B : Nat} (e : Engine L B) : Bool := e.phase == .absorb

/-- The two bits of `E.phase` (R27). -/
def Phase.code : Phase → BitVec 2
  | .idle => 0#2
  | .absorb => 1#2
  | .done => 2#2
  | .fault => 3#2

/-- The three bits of `E.cause` (R201). -/
def causeCode : Option Cause → BitVec 3
  | none => 0#3
  | some .illegalOp => 1#3
  | some .resEngine => 2#3
  | some .resBits => 3#3
  | some .pushPhase => 4#3
  | some .finalPhase => 5#3
  | some .lenOverflow => 6#3

end Sys2Proof.Machine
end

