-- ==== Sys2Proof/Machine/Ports.lean ====
section
/-! DEFINITION. The output ports (10_state.md R34), and in which cycles the spec says what they show
(70_reset_and_hazards.md R231, R233). `buf`, `fill` and `len` are on no port (R35). -/

namespace Sys2Proof.Machine

/-- The output ports (R34), numbered 0 to 12 from `e32Phase` to `e64H2` where they can be unspecified. -/
structure OutPorts where
  cmdReady : Bool
  e32Phase : BitVec 2
  e32Cause : BitVec 3
  e32H1 : Word32
  e86Phase : BitVec 2
  e86Cause : BitVec 3
  e86H1 : Word32
  e86H2 : Word32
  e86H3 : Word32
  e86H4 : Word32
  e64Phase : BitVec 2
  e64Cause : BitVec 3
  e64H1 : Word64
  e64H2 : Word64
  primY : Word64
deriving DecidableEq, Repr

/-- The level of `rst` in the present cycle, which the next rising edge samples (R230, R231; log entry 15). -/
def rstLevel : List HostAct → Bool
  | [] => false
  | .edge rst _ _ :: _ => rst
  | .prim _ :: rest => rstLevel rest

/-- Does the spec say what the phase, cause and lane ports show in the present cycle? In a quiescent cycle, `rst = 0` and
`cmd_ready = 1` (R233), and in a cycle that follows a reset edge (R231). Not while `cmd_ready = 0`, nor with `rst = 1` before
the reset edge (R233, U5). -/
def State.portsSpecified (s : State) : Bool := s.afterReset || (s.cmdReady && !rstLevel s.plan)

/-- A port that can be unspecified: its field, or a free value (log entry 7). -/
def State.shown {n : Nat} (s : State) (port : Nat) (v : BitVec n) : BitVec n :=
  if s.portsSpecified then v else (Config.unspecifiedPort port s.tick).setWidth n

/-- The output ports in the present cycle. `cmd_ready` and `prim_y` are specified in every cycle (R34, R114). -/
def State.outPorts (s : State) : OutPorts where
  cmdReady := s.cmdReady
  e32Phase := s.shown 0 s.e32.phase.code
  e32Cause := s.shown 1 (causeCode s.e32.cause)
  e32H1 := s.shown 2 s.e32.h
  e86Phase := s.shown 3 s.e86.phase.code
  e86Cause := s.shown 4 (causeCode s.e86.cause)
  e86H1 := s.shown 5 s.e86.h.h1
  e86H2 := s.shown 6 s.e86.h.h2
  e86H3 := s.shown 7 s.e86.h.h3
  e86H4 := s.shown 8 s.e86.h.h4
  e64Phase := s.shown 9 s.e64.phase.code
  e64Cause := s.shown 10 (causeCode s.e64.cause)
  e64H1 := s.shown 11 s.e64.h.h1
  e64H2 := s.shown 12 s.e64.h.h2
  primY := s.primY

end Sys2Proof.Machine
end

