-- ==== Sys2Proof/Safety.lean ====
section
/-! DEFINITION. The terms the claims are stated in: sequences of instructions and of accepted words, the invariants of 10_state.md
R38, the message an engine has received, the phase table of 44_command_layer.md R195, the well-behaved host of R232. -/

namespace Sys2Proof.Machine

/-! ### Sequences -/

/-- Instructions one after another (R60, R181). -/
def execAll : List Instr → State → Host.Outcome State Fault Refusal
  | [], s => .next s
  | i :: is, s =>
    match exec i s with
    | .next t => execAll is t
    | .fault r => .fault r
    | .refused r => .refused r

/-- Accepted command words one after another, malformed ones included: the function `step : State x u40 -> State` of R181
applied to a sequence. -/
def runWords : List CmdWord → State → Host.Outcome State Fault Refusal
  | [], s => .next s
  | w :: ws, s =>
    match runPort (.command w) s with
    | .next t => runWords ws t
    | .fault r => .fault r
    | .refused r => .refused r

/-! ### Messages -/

/-- The bytes an instruction pushes to an engine, in order (R52, R56). -/
def pushedTo (e : EngineId) : Instr → List Byte
  | .pushb32 b => if e = .e32 then [b] else []
  | .pushb86 b => if e = .e86 then [b] else []
  | .pushb64 b => if e = .e64 then [b] else []
  | .pushw32 v => if e = .e32 then payloadBytes v else []
  | .pushw86 v => if e = .e86 then payloadBytes v else []
  | .pushw64 v => if e = .e64 then payloadBytes v else []
  | .nop _ | .init32 _ | .init86 _ | .init64 _ | .final32 | .final86 | .final64 => []
  | .rotl32 _ _ | .rotl64 _ _ | .fmix32 _ _ | .fmix64 _ _ => []

/-- The bytes a sequence of instructions pushes to an engine. -/
def messageTo (e : EngineId) (is : List Instr) : List Byte := is.flatMap (pushedTo e)

/-- The three kinds of command an engine takes. -/
inductive Kind where
  | init | push | final
deriving DecidableEq, Repr

/-- The kind of a command; `NOP` and the primitive operations are of none. -/
def kindOf : Instr → Option Kind
  | .init32 _ | .init86 _ | .init64 _ => some .init
  | .pushb32 _ | .pushb86 _ | .pushb64 _ | .pushw32 _ | .pushw86 _ | .pushw64 _ => some .push
  | .final32 | .final86 | .final64 => some .final
  | .nop _ | .rotl32 _ _ | .rotl64 _ _ | .fmix32 _ _ | .fmix64 _ _ => none

/-- An instruction that neither opens nor closes a message on the engine: a push to it, a `NOP`, a primitive operation, any
command to another engine. -/
def leavesOpen (e : EngineId) (i : Instr) : Bool := i.engine != some e || kindOf i == some .push

/-- The lanes after the complete blocks of a message (R38 item 3, R190). -/
def foldedLanes {L : Type} (B : Nat) (block : L → List Byte → L) (h : L) (m : List Byte) : L :=
  absorbBlocks B block (m.length / B) h m

/-- The tail of a message: what follows its complete blocks (R52). -/
def tailOf (B : Nat) (m : List Byte) : List Byte := m.drop (B * (m.length / B))

/-! ### Invariants (R38) -/

/-- The zero-padding invariant: bytes of the buffer at and above `fill` are zero (R31, R38 item 1). -/
def Engine.zeroPadded {L : Type} {B : Nat} (e : Engine L B) : Prop := ∀ i : Fin B, e.fill ≤ i → e.buf[i] = 0#8

/-- What R38 says of an engine without speaking of its message: zero padding; in `IDLE` the reset values (item 2); in
`ABSORB`, `fill = len mod B` (item 3); in `DONE`, an empty buffer (item 4); a cause exactly in `FAULT` (item 5, R29). -/
def Engine.Sound {L : Type} {B : Nat} [NeZero B] (zero : L) (e : Engine L B) : Prop :=
  e.zeroPadded ∧
  (e.phase = .idle → e = Engine.resetTo zero) ∧
  (e.phase = .absorb → e.fill.val = e.len.toNat % B) ∧
  (e.phase = .done → e.fill = 0 ∧ e.buf = zeroBuf B) ∧
  (e.phase = .fault ↔ e.cause ≠ none)

/-- `Engine.Sound` for the three engines. -/
def State.Sound (s : State) : Prop :=
  s.e32.Sound 0#32 ∧ s.e86.Sound ⟨0#32, 0#32, 0#32, 0#32⟩ ∧ s.e64.Sound ⟨0#64, 0#64⟩

/-- An engine in `ABSORB` that has received the message `m` since an `INIT` that left the lanes `h0`: `len` is its length, the
lanes are `h0` folded over its complete blocks, the buffer holds its tail (R38 item 3). -/
def Engine.Holds {L : Type} {B : Nat} (h0 : L) (block : L → List Byte → L) (m : List Byte) (e : Engine L B) : Prop :=
  e.phase = .absorb ∧ e.len.toNat = m.length ∧ e.h = foldedLanes B block h0 m ∧ e.tail = tailOf B m

/-- The seed of an `INIT`; 0 for an instruction that has none. -/
def seedOf : Instr → Word32
  | .init32 s | .init86 s | .init64 s => s
  | .nop _ | .pushb32 _ | .pushb86 _ | .pushb64 _ | .pushw32 _ | .pushw86 _ | .pushw64 _ => 0#32
  | .final32 | .final86 | .final64 | .rotl32 _ _ | .rotl64 _ _ | .fmix32 _ _ | .fmix64 _ _ => 0#32

/-- What the host has told an engine: the seed of its last `INIT` and the bytes pushed since. A claim keeps it
beside the machine; it is no state. -/
structure Heard where
  seed : Word32
  bytes : List Byte
deriving DecidableEq, Repr

/-- What an engine has been told after one more instruction (R52, R130, R131, R132). -/
def Heard.after (e : EngineId) (i : Instr) (g : Heard) : Heard :=
  if i.engine = some e ∧ kindOf i = some .init then ⟨seedOf i, []⟩ else ⟨g.seed, g.bytes ++ pushedTo e i⟩

/-- The instruction the next step runs, none where it accepts nothing or a word that is a decode fault. -/
def stepInstr (s : State) : Option Instr :=
  match fetch s with
  | .run p _ =>
    match decodePort p with
    | .instr i => some i
    | .bad _ _ => none
  | .quiet _ => none
  | .refuse _ => none

/-- What an engine has been told after the next step. -/
def Heard.afterStep (e : EngineId) (s : State) (g : Heard) : Heard :=
  match stepInstr s with
  | some i => g.after e i
  | none => g

/-- What the three engines have been told. -/
structure Told where
  e32 : Heard
  e86 : Heard
  e64 : Heard
deriving DecidableEq, Repr

/-- What the three engines have been told after the next step. -/
def Told.afterStep (s : State) (g : Told) : Told :=
  ⟨g.e32.afterStep .e32 s, g.e86.afterStep .e86 s, g.e64.afterStep .e64 s⟩

/-- What R38 says of an engine that has been told `g`: in `ABSORB` it holds that message under that seed (item 3); in `DONE`
its lanes are that message's digest under that seed and `len` its length (item 4). -/
def Engine.Explained {L : Type} {B : Nat} (seedLanes : Word32 → L) (block : L → List Byte → L)
    (hash : List Byte → Word32 → L) (g : Heard) (e : Engine L B) : Prop :=
  (e.phase = .absorb → e.Holds (seedLanes g.seed) block g.bytes) ∧
  (e.phase = .done → e.len.toNat = g.bytes.length ∧ e.h = hash g.bytes g.seed)

/-- `Engine.Explained` for the three engines. -/
def State.Explained (g : Told) (s : State) : Prop :=
  s.e32.Explained init32 block32 hash32 g.e32 ∧ s.e86.Explained init86 block86 hash128x86 g.e86 ∧
    s.e64.Explained init64 block64 hash128x64 g.e64

/-! ### Phases (R195) -/

/-- The phase table of R195 for an engine and a command that addresses it: the phase after it and, where the engine takes a
fault, the code. `fits` says that the pushed bytes fit under the length bound. -/
def transition : Phase → Kind → Bool → Phase × Option Cause
  | .fault, _, _ => (.fault, none)
  | .idle, .init, _ => (.absorb, none)
  | .idle, .push, _ => (.fault, some .pushPhase)
  | .idle, .final, _ => (.fault, some .finalPhase)
  | .absorb, .init, _ => (.absorb, none)
  | .absorb, .push, true => (.absorb, none)
  | .absorb, .push, false => (.fault, some .lenOverflow)
  | .absorb, .final, _ => (.done, none)
  | .done, .init, _ => (.absorb, none)
  | .done, .push, _ => (.fault, some .pushPhase)
  | .done, .final, _ => (.fault, some .finalPhase)

/-- An engine has moved from `e` to `e'` as the table says for a command of kind `k` that pushes `n` bytes: its phase is the
table's, its cause is written exactly where the table has a code, and in the row `FAULT` no field of it changes. -/
def Engine.movedBy {L : Type} {B : Nat} (k : Kind) (n : Nat) (e e' : Engine L B) : Prop :=
  let entry := transition e.phase k (e.len.toNat + n ≤ Config.lenMax)
  e'.phase = entry.1 ∧ (e'.cause = if entry.2 = none then e.cause else entry.2) ∧ (e.phase = .fault → e' = e)

/-! ### The host -/

/-- The plan of a host that keeps every word stable until it is accepted (R232) and then waits for `cmd_ready`. `busy` and
`stalls` are how long the block stays busy: for the step in progress, and for the words to come, in order. -/
def hostPlan : List CmdWord → Nat → List Nat → List HostAct
  | [], busy, _ => List.replicate busy (.edge false false 0#40)
  | w :: ws, busy, stalls =>
    List.replicate (busy + 1) (.edge false true w) ++ hostPlan ws (stalls.headD 0) stalls.tail

end Sys2Proof.Machine
end

