-- ==== Sys2Proof/Certificates/Slice0/Obligations.lean ====
section
/-! DEFINITION. The statements. `open` puts the model's names in reach; every statement stands under its full name. -/

open Sys2Proof Sys2Proof.Machine

/-! ### Encodings -/

/-- Decoding an instruction's encoding gives it back, with every operand at every value its width admits (R70, R74, R76,
R90). -/
def Obligations.DecodingAnEncodingGivesItBack : Prop :=
  ∀ i : Instr, decodePort (encode i) = .instr i

/-- A word or a setting of the pins that decodes to an instruction is that instruction's encoding: decoding loses no bit. -/
def Obligations.EncodingWhatWasDecodedGivesItBack : Prop :=
  ∀ (p : PortWord) (i : Instr), decodePort p = .instr i → encode i = p

/-- R75: a word is the named command exactly when it fits the row's mask and pattern, it fits at most one row, and a word
that fits none is a decode fault. -/
def Obligations.OpcodeMapDecidesDecoding : Prop :=
  (∀ (w : CmdWord), ∀ r ∈ opcodeTable,
    (w &&& r.mask = r.pattern ↔ ∃ i, decode w = .instr i ∧ i.mnemonic = r.mnemonic)) ∧
  (∀ (w : CmdWord), ∀ r ∈ opcodeTable, ∀ r' ∈ opcodeTable,
    w &&& r.mask = r.pattern → w &&& r'.mask = r'.pattern → r = r') ∧
  (∀ w : CmdWord, (∀ r ∈ opcodeTable, w &&& r.mask ≠ r.pattern) → ∃ T c, decode w = .bad T c)

/-- R77, on the fields as numbers: each illegal or reserved encoding raises exactly its cause on exactly its engines. -/
def Obligations.ReservedEncodingsRaiseTheirCause : Prop :=
  ∀ (w : CmdWord) (s : State),
    let op := w.toNat / 2 ^ 36
    let eng := w.toNat / 2 ^ 34 % 4
    let rsv := w.toNat / 2 ^ 32 % 4
    let payload := w.toNat % 2 ^ 32
    let engine : Target := if eng = 0 then .one .e32 else if eng = 1 then .one .e86 else .one .e64
    (5 ≤ op → eng < 3 → runPort (.command w) s = .next (s.raiseFault engine .illegalOp)) ∧
    (5 ≤ op → eng = 3 → runPort (.command w) s = .next (s.raiseFault .all .illegalOp)) ∧
    (1 ≤ op → op ≤ 4 → eng = 3 → runPort (.command w) s = .next (s.raiseFault .all .resEngine)) ∧
    (1 ≤ op → op ≤ 4 → eng < 3 → rsv ≠ 0 → runPort (.command w) s = .next (s.raiseFault engine .resBits)) ∧
    (op = 2 → eng < 3 → rsv = 0 → 256 ≤ payload → runPort (.command w) s = .next (s.raiseFault engine .resBits)) ∧
    (op = 4 → eng < 3 → rsv = 0 → payload ≠ 0 → runPort (.command w) s = .next (s.raiseFault engine .resBits))

/-- R94: the encoder writes the assembler's words. -/
def Obligations.EncoderFollowsAssemblerFormula : Prop :=
  encode (.nop 0#36) = .command 0#40 ∧
  (∀ s : Word32,
    encode (.init32 s) = .command (BitVec.ofNat 40 (0x1000000000 + 0 * 0x0400000000 + s.toNat)) ∧
    encode (.init86 s) = .command (BitVec.ofNat 40 (0x1000000000 + 1 * 0x0400000000 + s.toNat)) ∧
    encode (.init64 s) = .command (BitVec.ofNat 40 (0x1000000000 + 2 * 0x0400000000 + s.toNat))) ∧
  (∀ b : Byte,
    encode (.pushb32 b) = .command (BitVec.ofNat 40 (0x2000000000 + 0 * 0x0400000000 + b.toNat)) ∧
    encode (.pushb86 b) = .command (BitVec.ofNat 40 (0x2000000000 + 1 * 0x0400000000 + b.toNat)) ∧
    encode (.pushb64 b) = .command (BitVec.ofNat 40 (0x2000000000 + 2 * 0x0400000000 + b.toNat))) ∧
  (∀ v : Word32,
    encode (.pushw32 v) = .command (BitVec.ofNat 40 (0x3000000000 + 0 * 0x0400000000 + v.toNat)) ∧
    encode (.pushw86 v) = .command (BitVec.ofNat 40 (0x3000000000 + 1 * 0x0400000000 + v.toNat)) ∧
    encode (.pushw64 v) = .command (BitVec.ofNat 40 (0x3000000000 + 2 * 0x0400000000 + v.toNat))) ∧
  encode .final32 = .command (BitVec.ofNat 40 (0x4000000000 + 0 * 0x0400000000)) ∧
  encode .final86 = .command (BitVec.ofNat 40 (0x4000000000 + 1 * 0x0400000000)) ∧
  encode .final64 = .command (BitVec.ofNat 40 (0x4000000000 + 2 * 0x0400000000))

/-- A few words written out bit by bit from R70, R75 and R90, one of each family, decode to what they stand for. That
`NOP` and `FMIX32` keep the bits they ignore as operands is the model's choice (log entry 11). -/
def Obligations.WordsOfTheOpcodeMapDecode : Prop :=
  decode (0b0000_11_11_11111111111111111111111111111111#40) = .instr (.nop 0xFFFFFFFFF#36) ∧
  decode (0b0001_01_00_10010111010001111011001010001100#40) = .instr (.init86 0x9747B28C#32) ∧
  decode (0b0010_00_00_00000000000000000000000001100001#40) = .instr (.pushb32 0x61#8) ∧
  decode (0b0011_10_00_00000011000000100000000100000000#40) = .instr (.pushw64 0x03020100#32) ∧
  decode (0b0100_10_00_00000000000000000000000000000000#40) = .instr .final64 ∧
  decodePrim ⟨0b10#2, 0xDEADBEEF#64, 5#6⟩ = .fmix32 0xDEADBEEF#64 5#6

/-! ### A step -/

/-- R183 at the ports: at an edge with `rst = 0`, `cmd_valid = 1`, `cmd_ready = 1` and no other word waiting, a word that
decodes to an instruction runs it. What the step adds is written out: the action leaves the plan, the step is counted, the
word no longer waits and the block is busy for the cycles the implementation takes. These are the model's form of the host and
the handshake (log entries 1, 5, 6, 7 and 8). -/
def Obligations.StepRunsTheAcceptedCommand : Prop :=
  ∀ (s : State) (w : CmdWord) (rest : List HostAct) (i : Instr),
    s.plan = .edge false true w :: rest → s.busy = 0 → (s.waiting = none ∨ s.waiting = some w) →
    decode w = .instr i →
    step s = exec i { s with
      plan := rest, tick := s.tick + 1, busy := s.stalls.headD 0, stalls := s.stalls.tail
      afterReset := false, waiting := none }

/-- A change of the primitive pins runs the operation they select, whatever the handshake does. What the step adds: the
action leaves the plan and the step is counted (log entries 1, 7 and 12). -/
def Obligations.StepRunsThePrimitiveOperation : Prop :=
  ∀ (s : State) (p : PrimPins) (rest : List HostAct),
    s.plan = .prim p :: rest →
    step s = exec (decodePrim p) { s with plan := rest, tick := s.tick + 1 }

/-- R183's arm for `Bad(T, c)` at the ports: an accepted word that is a decode fault raises it. What the step adds, `plan`,
`tick`, `busy`, `stalls`, `afterReset` and `waiting`, is the model's form of the host and the handshake (log entries 1, 5, 6, 7 and
8). -/
def Obligations.StepTakesTheDecodeFault : Prop :=
  ∀ (s : State) (w : CmdWord) (rest : List HostAct) (T : Target) (c : Reject),
    s.plan = .edge false true w :: rest → s.busy = 0 → (s.waiting = none ∨ s.waiting = some w) →
    decode w = .bad T c →
    step s = .next (State.raiseFault T (rejectCause c) { s with
      plan := rest, tick := s.tick + 1, busy := s.stalls.headD 0, stalls := s.stalls.tail
      afterReset := false, waiting := none })

/-- R192: every instruction completes in every state, and every word on either port has a next state. -/
def Obligations.EveryWordHasANextState : Prop :=
  (∀ (i : Instr) (s : State), ∃ t, exec i s = .next t) ∧
  (∀ (p : PortWord) (s : State), ∃ t, runPort p s = .next t)

/-! ### The commands -/

/-- R130, with its encoding (R75) and the frozen engine of R184. The next state is written out whole: everything but the
engine's phase, lanes, buffer, fill and length is as before. -/
def Obligations.InitOpensMessage32 : Prop :=
  ∀ (seed : Word32) (s : State),
    decode (BitVec.ofNat 40 (0x1000000000 + seed.toNat)) = .instr (.init32 seed) ∧
    (s.e32.phase ≠ .fault →
      exec (.init32 seed) s = .next { s with e32 := { s.e32 with
        phase := .absorb, h := seed, buf := zeroBuf 4, fill := 0, len := 0#64 }}) ∧
    (s.e32.phase = .fault → exec (.init32 seed) s = .next s)

/-- R131, with its encoding. In `ABSORB` with room for a byte the byte is stored at `buf[fill]` and, where it completes the
block, the block step runs in the same command. The stops of R207 and R208 write phase and cause alone. The next state is
written out whole. -/
def Obligations.PushbPushesOneByte32 : Prop :=
  ∀ (b : Byte) (s : State),
    decode (BitVec.ofNat 40 (0x2000000000 + b.toNat)) = .instr (.pushb32 b) ∧
    (s.e32.phase = .absorb → s.e32.len.toNat < 2 ^ 64 - 1 → s.e32.fill.val ≠ 3 →
      exec (.pushb32 b) s = .next { s with e32 := { s.e32 with
        buf := s.e32.buf.set s.e32.fill.val b, fill := s.e32.fill + 1, len := s.e32.len + 1#64 }}) ∧
    (s.e32.phase = .absorb → s.e32.len.toNat < 2 ^ 64 - 1 → s.e32.fill.val = 3 →
      let full := s.e32.buf.set 3 b
      exec (.pushb32 b) s = .next { s with e32 := { s.e32 with
        h := round32 s.e32.h (leWord 32 [full[0], full[1], full[2], full[3]]),
        buf := zeroBuf 4, fill := 0, len := s.e32.len + 1#64 }}) ∧
    (s.e32.phase = .absorb → s.e32.len.toNat = 2 ^ 64 - 1 →
      exec (.pushb32 b) s = .next { s with e32 := { s.e32 with phase := .fault, cause := some .lenOverflow }}) ∧
    (s.e32.phase = .idle ∨ s.e32.phase = .done →
      exec (.pushb32 b) s = .next { s with e32 := { s.e32 with phase := .fault, cause := some .pushPhase }}) ∧
    (s.e32.phase = .fault → exec (.pushb32 b) s = .next s)

/-- R132, with its encoding: the four bytes, low byte first, by the one-byte push of R131, all or none. -/
def Obligations.PushwPushesFourBytes32 : Prop :=
  ∀ (v : Word32) (s : State),
    decode (BitVec.ofNat 40 (0x3000000000 + v.toNat)) = .instr (.pushw32 v) ∧
    (s.e32.phase = .absorb → s.e32.len.toNat ≤ 2 ^ 64 - 5 →
      exec (.pushw32 v) s = .next { s with
        e32 := (((s.e32.pushByte block32 (v.extractLsb' 0 8)).pushByte block32 (v.extractLsb' 8 8)).pushByte block32
          (v.extractLsb' 16 8)).pushByte block32 (v.extractLsb' 24 8) }) ∧
    (s.e32.phase = .absorb → 2 ^ 64 - 5 < s.e32.len.toNat →
      exec (.pushw32 v) s = .next { s with e32 := { s.e32 with phase := .fault, cause := some .lenOverflow }}) ∧
    (s.e32.phase = .idle ∨ s.e32.phase = .done →
      exec (.pushw32 v) s = .next { s with e32 := { s.e32 with phase := .fault, cause := some .pushPhase }}) ∧
    (s.e32.phase = .fault → exec (.pushw32 v) s = .next s)

/-- R133, with its encoding: tail step and finalization into the lanes, an empty buffer, `DONE`, `len` kept. -/
def Obligations.FinalLeavesDigest32 : Prop :=
  decode (BitVec.ofNat 40 0x4000000000) = .instr .final32 ∧
  ∀ s : State,
    (s.e32.phase = .absorb →
      exec .final32 s = .next { s with e32 := { s.e32 with
        phase := .done, buf := zeroBuf 4, fill := 0,
        h := final32 (tail32 s.e32.h (s.e32.buf.toList.take s.e32.fill.val)) s.e32.len }}) ∧
    (s.e32.phase = .idle ∨ s.e32.phase = .done →
      exec .final32 s = .next { s with e32 := { s.e32 with phase := .fault, cause := some .finalPhase }}) ∧
    (s.e32.phase = .fault → exec .final32 s = .next s)

/-- R134: an `INIT`, pushes of a message split into bytes and words in any way, a `FINAL`, with `NOP`s, primitive operations
and any commands to the other engines between them, leave the document's digest of the message. -/
def Obligations.CommandsComputeHash32 : Prop :=
  ∀ (seed : Word32) (is : List Instr) (s : State),
    s.e32.phase ≠ .fault → (∀ i ∈ is, leavesOpen .e32 i) → (messageTo .e32 is).length ≤ 2 ^ 64 - 1 →
    ∃ t, execAll (.init32 seed :: is ++ [.final32]) s = .next t ∧
      t.e32.phase = .done ∧ t.e32.h = hash32 (messageTo .e32 is) seed ∧
      t.e32.len.toNat = (messageTo .e32 is).length

/-- R150, with its encoding (R75) and the frozen engine of R184. The next state is written out whole: everything but the
engine's phase, lanes, buffer, fill and length is as before. -/
def Obligations.InitOpensMessage86 : Prop :=
  ∀ (seed : Word32) (s : State),
    decode (BitVec.ofNat 40 (0x1400000000 + seed.toNat)) = .instr (.init86 seed) ∧
    (s.e86.phase ≠ .fault →
      exec (.init86 seed) s = .next { s with e86 := { s.e86 with
        phase := .absorb, h := ⟨seed, seed, seed, seed⟩, buf := zeroBuf 16, fill := 0, len := 0#64 }}) ∧
    (s.e86.phase = .fault → exec (.init86 seed) s = .next s)

/-- R151, with its encoding. In `ABSORB` with room for a byte the byte is stored at `buf[fill]` and, where it completes the
block, the block step runs in the same command. The stops of R207 and R208 write phase and cause alone. The next state is
written out whole. -/
def Obligations.PushbPushesOneByte86 : Prop :=
  ∀ (b : Byte) (s : State),
    decode (BitVec.ofNat 40 (0x2400000000 + b.toNat)) = .instr (.pushb86 b) ∧
    (s.e86.phase = .absorb → s.e86.len.toNat < 2 ^ 64 - 1 → s.e86.fill.val ≠ 15 →
      exec (.pushb86 b) s = .next { s with e86 := { s.e86 with
        buf := s.e86.buf.set s.e86.fill.val b, fill := s.e86.fill + 1, len := s.e86.len + 1#64 }}) ∧
    (s.e86.phase = .absorb → s.e86.len.toNat < 2 ^ 64 - 1 → s.e86.fill.val = 15 →
      let full := s.e86.buf.set 15 b
      exec (.pushb86 b) s = .next { s with e86 := { s.e86 with
        h := round86 s.e86.h (leWord 32 [full[0], full[1], full[2], full[3]])
              (leWord 32 [full[4], full[5], full[6], full[7]]) (leWord 32 [full[8], full[9], full[10], full[11]])
              (leWord 32 [full[12], full[13], full[14], full[15]]),
        buf := zeroBuf 16, fill := 0, len := s.e86.len + 1#64 }}) ∧
    (s.e86.phase = .absorb → s.e86.len.toNat = 2 ^ 64 - 1 →
      exec (.pushb86 b) s = .next { s with e86 := { s.e86 with phase := .fault, cause := some .lenOverflow }}) ∧
    (s.e86.phase = .idle ∨ s.e86.phase = .done →
      exec (.pushb86 b) s = .next { s with e86 := { s.e86 with phase := .fault, cause := some .pushPhase }}) ∧
    (s.e86.phase = .fault → exec (.pushb86 b) s = .next s)

/-- R152, with its encoding: the four bytes, low byte first, by the one-byte push of R151, all or none. -/
def Obligations.PushwPushesFourBytes86 : Prop :=
  ∀ (v : Word32) (s : State),
    decode (BitVec.ofNat 40 (0x3400000000 + v.toNat)) = .instr (.pushw86 v) ∧
    (s.e86.phase = .absorb → s.e86.len.toNat ≤ 2 ^ 64 - 5 →
      exec (.pushw86 v) s = .next { s with
        e86 := (((s.e86.pushByte block86 (v.extractLsb' 0 8)).pushByte block86 (v.extractLsb' 8 8)).pushByte block86
          (v.extractLsb' 16 8)).pushByte block86 (v.extractLsb' 24 8) }) ∧
    (s.e86.phase = .absorb → 2 ^ 64 - 5 < s.e86.len.toNat →
      exec (.pushw86 v) s = .next { s with e86 := { s.e86 with phase := .fault, cause := some .lenOverflow }}) ∧
    (s.e86.phase = .idle ∨ s.e86.phase = .done →
      exec (.pushw86 v) s = .next { s with e86 := { s.e86 with phase := .fault, cause := some .pushPhase }}) ∧
    (s.e86.phase = .fault → exec (.pushw86 v) s = .next s)

/-- R153, with its encoding: tail step and finalization into the lanes, an empty buffer, `DONE`, `len` kept. -/
def Obligations.FinalLeavesDigest86 : Prop :=
  decode (BitVec.ofNat 40 0x4400000000) = .instr .final86 ∧
  ∀ s : State,
    (s.e86.phase = .absorb →
      exec .final86 s = .next { s with e86 := { s.e86 with
        phase := .done, buf := zeroBuf 16, fill := 0,
        h := final86 (tail86 s.e86.h (s.e86.buf.toList.take s.e86.fill.val)) s.e86.len }}) ∧
    (s.e86.phase = .idle ∨ s.e86.phase = .done →
      exec .final86 s = .next { s with e86 := { s.e86 with phase := .fault, cause := some .finalPhase }}) ∧
    (s.e86.phase = .fault → exec .final86 s = .next s)

/-- R154: an `INIT`, pushes of a message split into bytes and words in any way, a `FINAL`, with `NOP`s, primitive operations
and any commands to the other engines between them, leave the document's digest of the message. -/
def Obligations.CommandsComputeHash86 : Prop :=
  ∀ (seed : Word32) (is : List Instr) (s : State),
    s.e86.phase ≠ .fault → (∀ i ∈ is, leavesOpen .e86 i) → (messageTo .e86 is).length ≤ 2 ^ 64 - 1 →
    ∃ t, execAll (.init86 seed :: is ++ [.final86]) s = .next t ∧
      t.e86.phase = .done ∧ t.e86.h = hash128x86 (messageTo .e86 is) seed ∧
      t.e86.len.toNat = (messageTo .e86 is).length

/-- R170, with its encoding (R75) and the frozen engine of R184. The next state is written out whole: everything but the
engine's phase, lanes, buffer, fill and length is as before. -/
def Obligations.InitOpensMessage64 : Prop :=
  ∀ (seed : Word32) (s : State),
    decode (BitVec.ofNat 40 (0x1800000000 + seed.toNat)) = .instr (.init64 seed) ∧
    (s.e64.phase ≠ .fault →
      exec (.init64 seed) s = .next { s with e64 := { s.e64 with
        phase := .absorb, h := ⟨seed.setWidth 64, seed.setWidth 64⟩, buf := zeroBuf 16, fill := 0, len := 0#64 }}) ∧
    (s.e64.phase = .fault → exec (.init64 seed) s = .next s)

/-- R171, with its encoding. In `ABSORB` with room for a byte the byte is stored at `buf[fill]` and, where it completes the
block, the block step runs in the same command. The stops of R207 and R208 write phase and cause alone. The next state is
written out whole. -/
def Obligations.PushbPushesOneByte64 : Prop :=
  ∀ (b : Byte) (s : State),
    decode (BitVec.ofNat 40 (0x2800000000 + b.toNat)) = .instr (.pushb64 b) ∧
    (s.e64.phase = .absorb → s.e64.len.toNat < 2 ^ 64 - 1 → s.e64.fill.val ≠ 15 →
      exec (.pushb64 b) s = .next { s with e64 := { s.e64 with
        buf := s.e64.buf.set s.e64.fill.val b, fill := s.e64.fill + 1, len := s.e64.len + 1#64 }}) ∧
    (s.e64.phase = .absorb → s.e64.len.toNat < 2 ^ 64 - 1 → s.e64.fill.val = 15 →
      let full := s.e64.buf.set 15 b
      exec (.pushb64 b) s = .next { s with e64 := { s.e64 with
        h := round64 s.e64.h
              (leWord 64 [full[0], full[1], full[2], full[3], full[4], full[5], full[6], full[7]])
              (leWord 64 [full[8], full[9], full[10], full[11], full[12], full[13], full[14], full[15]]),
        buf := zeroBuf 16, fill := 0, len := s.e64.len + 1#64 }}) ∧
    (s.e64.phase = .absorb → s.e64.len.toNat = 2 ^ 64 - 1 →
      exec (.pushb64 b) s = .next { s with e64 := { s.e64 with phase := .fault, cause := some .lenOverflow }}) ∧
    (s.e64.phase = .idle ∨ s.e64.phase = .done →
      exec (.pushb64 b) s = .next { s with e64 := { s.e64 with phase := .fault, cause := some .pushPhase }}) ∧
    (s.e64.phase = .fault → exec (.pushb64 b) s = .next s)

/-- R172, with its encoding: the four bytes, low byte first, by the one-byte push of R171, all or none. -/
def Obligations.PushwPushesFourBytes64 : Prop :=
  ∀ (v : Word32) (s : State),
    decode (BitVec.ofNat 40 (0x3800000000 + v.toNat)) = .instr (.pushw64 v) ∧
    (s.e64.phase = .absorb → s.e64.len.toNat ≤ 2 ^ 64 - 5 →
      exec (.pushw64 v) s = .next { s with
        e64 := (((s.e64.pushByte block64 (v.extractLsb' 0 8)).pushByte block64 (v.extractLsb' 8 8)).pushByte block64
          (v.extractLsb' 16 8)).pushByte block64 (v.extractLsb' 24 8) }) ∧
    (s.e64.phase = .absorb → 2 ^ 64 - 5 < s.e64.len.toNat →
      exec (.pushw64 v) s = .next { s with e64 := { s.e64 with phase := .fault, cause := some .lenOverflow }}) ∧
    (s.e64.phase = .idle ∨ s.e64.phase = .done →
      exec (.pushw64 v) s = .next { s with e64 := { s.e64 with phase := .fault, cause := some .pushPhase }}) ∧
    (s.e64.phase = .fault → exec (.pushw64 v) s = .next s)

/-- R173, with its encoding: tail step and finalization into the lanes, an empty buffer, `DONE`, `len` kept. -/
def Obligations.FinalLeavesDigest64 : Prop :=
  decode (BitVec.ofNat 40 0x4800000000) = .instr .final64 ∧
  ∀ s : State,
    (s.e64.phase = .absorb →
      exec .final64 s = .next { s with e64 := { s.e64 with
        phase := .done, buf := zeroBuf 16, fill := 0,
        h := final64 (tail64 s.e64.h (s.e64.buf.toList.take s.e64.fill.val)) s.e64.len }}) ∧
    (s.e64.phase = .idle ∨ s.e64.phase = .done →
      exec .final64 s = .next { s with e64 := { s.e64 with phase := .fault, cause := some .finalPhase }}) ∧
    (s.e64.phase = .fault → exec .final64 s = .next s)

/-- R174: an `INIT`, pushes of a message split into bytes and words in any way, a `FINAL`, with `NOP`s, primitive operations
and any commands to the other engines between them, leave the document's digest of the message. -/
def Obligations.CommandsComputeHash64 : Prop :=
  ∀ (seed : Word32) (is : List Instr) (s : State),
    s.e64.phase ≠ .fault → (∀ i ∈ is, leavesOpen .e64 i) → (messageTo .e64 is).length ≤ 2 ^ 64 - 1 →
    ∃ t, execAll (.init64 seed :: is ++ [.final64]) s = .next t ∧
      t.e64.phase = .done ∧ t.e64.h = hash128x64 (messageTo .e64 is) seed ∧
      t.e64.len.toNat = (messageTo .e64 is).length

/-- R185 and R78: every word with `op = 0` is a `NOP`, and a `NOP` changes nothing. That `NOP` keeps its 36 ignored bits as an
operand is the model's choice (log entry 11); R185 gives it none. -/
def Obligations.NopChangesNothing : Prop :=
  (∀ (w : CmdWord) (s : State), w.toNat < 2 ^ 36 →
    decode w = .instr (.nop (BitVec.ofNat 36 w.toNat)) ∧ runPort (.command w) s = .next s) ∧
  (∀ (hint : BitVec 36) (s : State), exec (.nop hint) s = .next s)

/-- R202: each engine of the set that is not in `FAULT` takes the phase and the cause; nothing else is written. -/
def Obligations.RaisingAFaultWritesPhaseAndCause : Prop :=
  ∀ (T : Target) (c : Cause) (s : State),
    let t := s.raiseFault T c
    t = { s with e32 := t.e32, e86 := t.e86, e64 := t.e64 } ∧
    t.e32 = (if T.has .e32 ∧ s.e32.phase ≠ .fault then { s.e32 with phase := .fault, cause := some c } else s.e32) ∧
    t.e86 = (if T.has .e86 ∧ s.e86.phase ≠ .fault then { s.e86 with phase := .fault, cause := some c } else s.e86) ∧
    t.e64 = (if T.has .e64 ∧ s.e64.phase ≠ .fault then { s.e64 with phase := .fault, cause := some c } else s.e64)

/-! ### The primitive operations -/

/-- R110: `ROTL32` shows `rotl32(prim_x[31:0], prim_r mod 32)`, zero-extended; nothing but the pins changes. -/
def Obligations.Rotl32OnThePrimitivePort : Prop :=
  ∀ (x : Word64) (r : BitVec 6) (s : State), ∃ t,
    exec (.rotl32 x r) s = .next t ∧ t = { s with pins := ⟨0#2, x, r⟩ } ∧
    t.primY = (rotl32 (x.setWidth 32) ⟨r.toNat % 32, Nat.mod_lt _ (by decide)⟩).setWidth 64

/-- R111: `ROTL64` shows `rotl64(prim_x, prim_r)`; nothing but the pins changes. -/
def Obligations.Rotl64OnThePrimitivePort : Prop :=
  ∀ (x : Word64) (r : BitVec 6) (s : State), ∃ t,
    exec (.rotl64 x r) s = .next t ∧ t = { s with pins := ⟨1#2, x, r⟩ } ∧
    t.primY = rotl64 x ⟨r.toNat, r.isLt⟩

/-- R112: `FMIX32` shows `fmix32(prim_x[31:0])`, zero-extended, whatever `prim_r`; nothing but the pins changes. -/
def Obligations.Fmix32OnThePrimitivePort : Prop :=
  ∀ (x : Word64) (r : BitVec 6) (s : State), ∃ t,
    exec (.fmix32 x r) s = .next t ∧ t = { s with pins := ⟨2#2, x, r⟩ } ∧
    t.primY = (fmix32 (x.setWidth 32)).setWidth 64

/-- R113: `FMIX64` shows `fmix64(prim_x)`, whatever `prim_r`; nothing but the pins changes. -/
def Obligations.Fmix64OnThePrimitivePort : Prop :=
  ∀ (x : Word64) (r : BitVec 6) (s : State), ∃ t,
    exec (.fmix64 x r) s = .next t ∧ t = { s with pins := ⟨3#2, x, r⟩ } ∧
    t.primY = fmix64 x

/-- R114: `prim_y` is a function of the pins; no clock edge, reset edges and edges of a busy block included, changes it,
and a change of the pins changes no engine. -/
def Obligations.PrimitiveOutputDependsOnPinsOnly : Prop :=
  (∀ s s' : State, s.pins = s'.pins → s.primY = s'.primY ∧ s.outPorts.primY = s'.outPorts.primY) ∧
  (∀ (s t : State) (rst valid : Bool) (w : CmdWord), s.nextAct = .edge rst valid w → step s = .next t →
    t.pins = s.pins ∧ t.primY = s.primY) ∧
  (∀ (s t : State) (p : PrimPins), s.nextAct = .prim p → step s = .next t →
    t.e32 = s.e32 ∧ t.e86 = s.e86 ∧ t.e64 = s.e64 ∧ t.busy = s.busy ∧ t.waiting = s.waiting)

/-! ### Reset and the handshake -/

/-- R37 at a reset edge from any state, the block busy or not, whatever word is presented: every field of every engine
takes its reset value, a step in progress is abandoned, the presented word is not accepted, and the ports show the reset
values. That the pins and the rest of the host's plan are left alone is the model's part (log entries 1 and 2). -/
def Obligations.ResetEdgeGivesTheResetState : Prop :=
  ∀ (s : State) (valid : Bool) (w : CmdWord) (rest : List HostAct),
    s.plan = .edge true valid w :: rest →
    ∃ t, step s = .next t ∧
      t = { s with
        e32 := ⟨.idle, none, 0#32, zeroBuf 4, 0, 0#64⟩
        e86 := ⟨.idle, none, ⟨0#32, 0#32, 0#32, 0#32⟩, zeroBuf 16, 0, 0#64⟩
        e64 := ⟨.idle, none, ⟨0#64, 0#64⟩, zeroBuf 16, 0, 0#64⟩
        busy := 0, afterReset := true, waiting := none, plan := rest, tick := s.tick + 1 } ∧
      t.outPorts = {
        cmdReady := true, e32Phase := 0#2, e32Cause := 0#3, e32H1 := 0#32
        e86Phase := 0#2, e86Cause := 0#3, e86H1 := 0#32, e86H2 := 0#32, e86H3 := 0#32, e86H4 := 0#32
        e64Phase := 0#2, e64Cause := 0#3, e64H1 := 0#64, e64H2 := 0#64, primY := s.primY }

/-- R236: at an edge with `rst = 0` at which no word is accepted, no engine field changes. -/
def Obligations.NothingChangesWithoutAcceptance : Prop :=
  ∀ (s t : State) (valid : Bool) (w : CmdWord),
    s.nextAct = .edge false valid w → (valid = false ∨ s.busy ≠ 0) → step s = .next t →
    t.e32 = s.e32 ∧ t.e86 = s.e86 ∧ t.e64 = s.e64

/-- R232: a word is accepted exactly at an edge with `rst = 0`, `cmd_valid = 1` and `cmd_ready = 1`, and it is the word
`cmd` holds there; the last condition, that the host has not broken its duty to keep a waiting word, is the refusal of log
entry 9. -/
def Obligations.WordIsAcceptedExactlyAtTheHandshake : Prop :=
  ∀ (s : State) (w : CmdWord),
    (∃ s', fetch s = .run (.command w) s') ↔
      s.nextAct = .edge false true w ∧ s.cmdReady = true ∧ (s.waiting = none ∨ s.waiting = some w)

/-- R232 and U7: a step is refused exactly when, at an edge with `rst = 0`, a word waits and the host does not present that
word. -/
def Obligations.OnlyABrokenHandshakeIsRefused : Prop :=
  ∀ (s : State) (r : Refusal),
    step s = .refused r ↔
      r = .hostBrokeHandshake ∧ ∃ (valid : Bool) (w w' : CmdWord), s.nextAct = .edge false valid w ∧
        s.waiting = some w' ∧ (valid = false ∨ w ≠ w')

/-- R240's liveness: with no reset and the host keeping its pins, no word waiting, `cmd_ready` is 1 after as many edges as
the step still takes, and no engine field has changed. -/
def Obligations.CmdReadyReturns : Prop :=
  ∀ s : State, s.plan = [] → s.waiting = none →
    ∃ t : State, Host.Core.run Sys2Proof.core s.busy s = .next t ∧ t.cmdReady = true ∧
      t.e32 = s.e32 ∧ t.e86 = s.e86 ∧ t.e64 = s.e64

/-- R233 with the codes of R27 and R201 written out: in a quiescent cycle each phase, cause and lane port shows its field. The
level of `rst` in a cycle is that of the next planned edge, the model's choice (log entry 15). -/
def Obligations.QuiescentPortsShowTheState : Prop :=
  ∀ s : State, s.cmdReady = true → rstLevel s.plan = false →
    let phaseBits : Phase → BitVec 2 := fun p =>
      if p = .idle then 0#2 else if p = .absorb then 1#2 else if p = .done then 2#2 else 3#2
    let causeBits : Option Cause → BitVec 3 := fun c =>
      if c = some .illegalOp then 1#3 else if c = some .resEngine then 2#3 else if c = some .resBits then 3#3
      else if c = some .pushPhase then 4#3 else if c = some .finalPhase then 5#3
      else if c = some .lenOverflow then 6#3 else 0#3
    s.outPorts.e32Phase = phaseBits s.e32.phase ∧ s.outPorts.e32Cause = causeBits s.e32.cause ∧
    s.outPorts.e32H1 = s.e32.h ∧
    s.outPorts.e86Phase = phaseBits s.e86.phase ∧ s.outPorts.e86Cause = causeBits s.e86.cause ∧
    s.outPorts.e86H1 = s.e86.h.h1 ∧ s.outPorts.e86H2 = s.e86.h.h2 ∧ s.outPorts.e86H3 = s.e86.h.h3 ∧
    s.outPorts.e86H4 = s.e86.h.h4 ∧
    s.outPorts.e64Phase = phaseBits s.e64.phase ∧ s.outPorts.e64Cause = causeBits s.e64.cause ∧
    s.outPorts.e64H1 = s.e64.h.h1 ∧ s.outPorts.e64H2 = s.e64.h.h2

/-- R181 and R232 together: driven by a host that keeps each word until it is accepted, the machine at its ports, however
long each step keeps it busy, ends quiescent with the engines that the sequence of accepted words alone gives. It holds for
every list of stalls. -/
def Obligations.HandshakeRunsTheWordSequence : Prop :=
  ∀ (ws : List CmdWord) (s u : State), s.waiting = none → s.plan = hostPlan ws s.busy s.stalls →
    runWords ws s = .next u →
    ∃ t : State, Host.Core.run Sys2Proof.core s.plan.length s = .next t ∧
      t.e32 = u.e32 ∧ t.e86 = u.e86 ∧ t.e64 = u.e64 ∧
      t.plan = [] ∧ t.waiting = none ∧ t.cmdReady = true ∧ t.pins = s.pins

/-! ### Invariants -/

/-- `State.Sound` holds after reset. -/
def Obligations.ResetStateIsSound : Prop := State.reset.Sound

/-- Every step keeps `State.Sound`, from every state that has it. -/
def Obligations.StepKeepsTheStateSound : Prop :=
  ∀ s t : State, s.Sound → step s = .next t → t.Sound

/-- `State.Explained` holds after reset, whatever the engines were told before it. -/
def Obligations.ResetStateIsExplained : Prop := ∀ g : Told, State.reset.Explained g

/-- Every step keeps `State.Explained`, from every state and for what each engine has been told: the message and the seed are
given, not chosen, and grow by the instruction the step runs. Running lanes are the fold of exactly the bytes pushed under the
seed of the last `INIT`, lanes in `DONE` are the digest of exactly that message. -/
def Obligations.StepKeepsTheStateExplained : Prop :=
  ∀ (s t : State) (g : Told), s.Explained g → step s = .next t → t.Explained (g.afterStep s)

/-! ### Rules of the whole machine -/

/-- R184 and R205: an engine in `FAULT` is left exactly as it is by every step but a reset edge. -/
def Obligations.FaultedEngineIsFrozen : Prop :=
  ∀ s t : State, step s = .next t → (∀ (valid : Bool) (w : CmdWord), s.nextAct ≠ .edge true valid w) →
    (s.e32.phase = .fault → t.e32 = s.e32) ∧ (s.e86.phase = .fault → t.e86 = s.e86) ∧
    (s.e64.phase = .fault → t.e64 = s.e64)

/-- R195: a command moves the engine it addresses as the table says and no other; a `NOP` or a primitive operation moves none;
a decode fault moves the engines of its set that are not in `FAULT`, and no other; reset moves every engine to `IDLE`. -/
def Obligations.PhasesMoveByTheTable : Prop :=
  (∀ (i : Instr) (k : Kind) (s t : State), kindOf i = some k → exec i s = .next t →
    (if i.engine = some .e32 then s.e32.movedBy k (pushedTo .e32 i).length t.e32 else t.e32 = s.e32) ∧
    (if i.engine = some .e86 then s.e86.movedBy k (pushedTo .e86 i).length t.e86 else t.e86 = s.e86) ∧
    (if i.engine = some .e64 then s.e64.movedBy k (pushedTo .e64 i).length t.e64 else t.e64 = s.e64)) ∧
  (∀ (i : Instr) (s t : State), kindOf i = none → exec i s = .next t →
    t.e32 = s.e32 ∧ t.e86 = s.e86 ∧ t.e64 = s.e64) ∧
  (∀ (T : Target) (c : Cause) (s : State),
    let t := s.raiseFault T c
    (if T.has .e32 ∧ s.e32.phase ≠ .fault then t.e32.phase = .fault ∧ t.e32.cause = some c else t.e32 = s.e32) ∧
    (if T.has .e86 ∧ s.e86.phase ≠ .fault then t.e86.phase = .fault ∧ t.e86.cause = some c else t.e86 = s.e86) ∧
    (if T.has .e64 ∧ s.e64.phase ≠ .fault then t.e64.phase = .fault ∧ t.e64.cause = some c else t.e64 = s.e64)) ∧
  (∀ s : State, s.applyReset.e32.phase = .idle ∧ s.applyReset.e86.phase = .idle ∧ s.applyReset.e64.phase = .idle)

/-- R196 on words: a word with `eng` in 0..2 writes only the engine it addresses and reads only that engine; a word with
`eng = 3` and `op` not 0 writes at most phase and cause, of engines not in `FAULT`; a `NOP` writes nothing. -/
def Obligations.WordsKeepToTheirEngine : Prop :=
  ∀ (w : CmdWord) (s t : State), runPort (.command w) s = .next t →
    let op := w.toNat / 2 ^ 36
    let eng := w.toNat / 2 ^ 34 % 4
    (eng = 0 → t = { s with e32 := t.e32 } ∧
      ∀ s' t' : State, s'.e32 = s.e32 → runPort (.command w) s' = .next t' → t'.e32 = t.e32) ∧
    (eng = 1 → t = { s with e86 := t.e86 } ∧
      ∀ s' t' : State, s'.e86 = s.e86 → runPort (.command w) s' = .next t' → t'.e86 = t.e86) ∧
    (eng = 2 → t = { s with e64 := t.e64 } ∧
      ∀ s' t' : State, s'.e64 = s.e64 → runPort (.command w) s' = .next t' → t'.e64 = t.e64) ∧
    (eng = 3 → op ≠ 0 → ∃ c : Cause, t = { s with
      e32 := if s.e32.phase = .fault then s.e32 else { s.e32 with phase := .fault, cause := some c }
      e86 := if s.e86.phase = .fault then s.e86 else { s.e86 with phase := .fault, cause := some c }
      e64 := if s.e64.phase = .fault then s.e64 else { s.e64 with phase := .fault, cause := some c } }) ∧
    (op = 0 → t = s)

/-- R61: two adjacent accepted words with `eng` in 0..2 that address different engines may be exchanged. -/
def Obligations.WordsToDifferentEnginesCommute : Prop :=
  ∀ (w w' : CmdWord) (s : State), w.toNat / 2 ^ 34 % 4 < 3 → w'.toNat / 2 ^ 34 % 4 < 3 →
    w.toNat / 2 ^ 34 % 4 ≠ w'.toNat / 2 ^ 34 % 4 →
    ∃ t, runWords [w, w'] s = .next t ∧ runWords [w', w] s = .next t

/-- R198: a `PUSHW` and the four `PUSHB`s of its bytes leave the same state, on an engine not in `ABSORB` or with room for
the four bytes. Without that room the `PUSHW` takes cause 6 and pushes nothing, and the four `PUSHB`s push the bytes there is
room for, at most three, before one of them takes it. -/
def Obligations.PushwEqualsFourPushbs : Prop :=
  ∀ (v : Word32) (s : State),
    (s.e32.phase ≠ .absorb ∨ s.e32.len.toNat ≤ 2 ^ 64 - 5 →
      exec (.pushw32 v) s = execAll ((payloadBytes v).map .pushb32) s) ∧
    (s.e32.phase = .absorb → 2 ^ 64 - 5 < s.e32.len.toNat →
      let room := 2 ^ 64 - 1 - s.e32.len.toNat
      exec (.pushw32 v) s = .next { s with e32 := { s.e32 with phase := .fault, cause := some .lenOverflow }} ∧
      room ≤ 3 ∧
      execAll ((payloadBytes v).map .pushb32) s = .next { s with e32 := {
        s.e32.pushBytes block32 ((payloadBytes v).take room) with phase := .fault, cause := some .lenOverflow }}) ∧
    (s.e86.phase ≠ .absorb ∨ s.e86.len.toNat ≤ 2 ^ 64 - 5 →
      exec (.pushw86 v) s = execAll ((payloadBytes v).map .pushb86) s) ∧
    (s.e86.phase = .absorb → 2 ^ 64 - 5 < s.e86.len.toNat →
      let room := 2 ^ 64 - 1 - s.e86.len.toNat
      exec (.pushw86 v) s = .next { s with e86 := { s.e86 with phase := .fault, cause := some .lenOverflow }} ∧
      room ≤ 3 ∧
      execAll ((payloadBytes v).map .pushb86) s = .next { s with e86 := {
        s.e86.pushBytes block86 ((payloadBytes v).take room) with phase := .fault, cause := some .lenOverflow }}) ∧
    (s.e64.phase ≠ .absorb ∨ s.e64.len.toNat ≤ 2 ^ 64 - 5 →
      exec (.pushw64 v) s = execAll ((payloadBytes v).map .pushb64) s) ∧
    (s.e64.phase = .absorb → 2 ^ 64 - 5 < s.e64.len.toNat →
      let room := 2 ^ 64 - 1 - s.e64.len.toNat
      exec (.pushw64 v) s = .next { s with e64 := { s.e64 with phase := .fault, cause := some .lenOverflow }} ∧
      room ≤ 3 ∧
      execAll ((payloadBytes v).map .pushb64) s = .next { s with e64 := {
        s.e64.pushBytes block64 ((payloadBytes v).take room) with phase := .fault, cause := some .lenOverflow }})

/-- R26: nothing of an earlier message survives `INIT`: from two states whose engine is not in `FAULT` and has the same
cause, an `INIT` and the same further instructions leave the same engine. -/
def Obligations.InitForgetsTheEarlierMessage : Prop :=
  ∀ (seed : Word32) (is : List Instr) (s s' t t' : State),
    (s.e32.phase ≠ .fault → s'.e32.phase ≠ .fault → s.e32.cause = s'.e32.cause →
      execAll (.init32 seed :: is) s = .next t → execAll (.init32 seed :: is) s' = .next t' → t.e32 = t'.e32) ∧
    (s.e86.phase ≠ .fault → s'.e86.phase ≠ .fault → s.e86.cause = s'.e86.cause →
      execAll (.init86 seed :: is) s = .next t → execAll (.init86 seed :: is) s' = .next t' → t.e86 = t'.e86) ∧
    (s.e64.phase ≠ .fault → s'.e64.phase ≠ .fault → s.e64.cause = s'.e64.cause →
      execAll (.init64 seed :: is) s = .next t → execAll (.init64 seed :: is) s' = .next t' → t.e64 = t'.e64)

/-! ### The pure functions -/

/-- R100 and R101, the bit form: bit `i` of `x` goes to bit `(i + r) mod W` of the result. -/
def Obligations.RotationMovesBits : Prop :=
  (∀ (x : Word32) (r : Fin 32) (i : Nat), i < 32 → (rotl32 x r).getLsbD ((i + r.val) % 32) = x.getLsbD i) ∧
  (∀ (x : Word64) (r : Fin 64) (i : Nat), i < 64 → (rotl64 x r).getLsbD ((i + r.val) % 64) = x.getLsbD i)

/-- R105: rotations compose, rotation by 0 is the identity, each is a bijection with the rotation by `W - r` as its inverse,
keeps the number of one bits, and distributes over xor. -/
def Obligations.RotationLaws : Prop :=
  (∀ (x y : Word32) (a b : Fin 32), rotl32 (rotl32 x a) b = rotl32 x (a + b) ∧ rotl32 x 0 = x ∧
    Function.Bijective (fun z => rotl32 z a) ∧
    rotl32 (rotl32 x a) (0 - a) = x ∧ rotl32 (rotl32 x (0 - a)) a = x ∧
    ((List.range 32).countP fun i => (rotl32 x a).getLsbD i) = ((List.range 32).countP fun i => x.getLsbD i) ∧
    rotl32 (x ^^^ y) a = rotl32 x a ^^^ rotl32 y a) ∧
  (∀ (x y : Word64) (a b : Fin 64), rotl64 (rotl64 x a) b = rotl64 x (a + b) ∧ rotl64 x 0 = x ∧
    Function.Bijective (fun z => rotl64 z a) ∧
    rotl64 (rotl64 x a) (0 - a) = x ∧ rotl64 (rotl64 x (0 - a)) a = x ∧
    ((List.range 64).countP fun i => (rotl64 x a).getLsbD i) = ((List.range 64).countP fun i => x.getLsbD i) ∧
    rotl64 (x ^^^ y) a = rotl64 x a ^^^ rotl64 y a)

/-- R106: the finalization mixes are bijections, and only 0 goes to 0. -/
def Obligations.FinalizationMixIsABijection : Prop :=
  Function.Bijective fmix32 ∧ Function.Bijective fmix64 ∧
  (∀ h, fmix32 h = 0#32 ↔ h = 0#32) ∧ (∀ h, fmix64 h = 0#64 ↔ h = 0#64)

/-- The empty message (R126, R147, R167): `hash32` is `fmix32` of the seed and distinct seeds give distinct digests; the last
three lanes of `hash128x86` are equal; seed 0 gives 0 on all three engines. -/
def Obligations.DigestOfTheEmptyMessage : Prop :=
  (∀ s : Word32, hash32 [] s = fmix32 s) ∧
  (∀ s s' : Word32, hash32 [] s = hash32 [] s' → s = s') ∧
  (∀ s : Word32, (hash128x86 [] s).h2 = (hash128x86 [] s).h3 ∧ (hash128x86 [] s).h3 = (hash128x86 [] s).h4) ∧
  hash32 [] 0#32 = 0#32 ∧ hash128x86 [] 0#32 = ⟨0#32, 0#32, 0#32, 0#32⟩ ∧ hash128x64 [] 0#32 = ⟨0#64, 0#64⟩

/-- R16, R54 and R55: in the little-endian word of `n` bytes, byte `i` stands in bits `8i+7 : 8i`, and the bits no byte covers
are zero. -/
def Obligations.LittleEndianPlacement : Prop :=
  ∀ (W : Nat) (bs : List Byte),
    (∀ (i j : Nat) (h : i < bs.length), j < 8 → 8 * i + j < W →
      (leWord W bs).getLsbD (8 * i + j) = bs[i].getLsbD j) ∧
    ∀ k, 8 * bs.length ≤ k → (leWord W bs).getLsbD k = false

/-- R124, R144 and R164, the derived form: the tail steps are those of the tail padded with zero bytes to a whole block. -/
def Obligations.TailStepsReadAZeroPaddedBlock : Prop :=
  (∀ (h : Word32) (t : List Byte), t.length < 4 →
    tail32 h t = h ^^^ kmix32 (leWord 32 (t ++ List.replicate (4 - t.length) 0#8))) ∧
  (∀ (h : Lanes86) (t : List Byte), t.length < 16 →
    let p := t ++ List.replicate (16 - t.length) 0#8
    tail86 h t = ⟨h.h1 ^^^ kmix86a (leWord 32 (slice p 0 4)), h.h2 ^^^ kmix86b (leWord 32 (slice p 4 4)),
      h.h3 ^^^ kmix86c (leWord 32 (slice p 8 4)), h.h4 ^^^ kmix86d (leWord 32 (slice p 12 4))⟩) ∧
  (∀ (h : Lanes64) (t : List Byte), t.length < 16 →
    let p := t ++ List.replicate (16 - t.length) 0#8
    tail64 h t = ⟨h.h1 ^^^ kmix64a (leWord 64 (slice p 0 8)), h.h2 ^^^ kmix64b (leWord 64 (slice p 8 8))⟩)

/-- R126, R147 and R167 as the loop over `i` in increasing order: a message of a block more folds the block `m[B*i ..
B*i+B-1]` into the lanes of the blocks before it. -/
def Obligations.BlocksAreFoldedInOrder : Prop :=
  (∀ (m b : List Byte) (h : Word32), m.length % 4 = 0 → b.length = 4 →
    foldedLanes 4 block32 h (m ++ b) = round32 (foldedLanes 4 block32 h m) (leWord 32 b)) ∧
  (∀ (m b : List Byte) (h : Lanes86), m.length % 16 = 0 → b.length = 16 →
    foldedLanes 16 block86 h (m ++ b) = round86 (foldedLanes 16 block86 h m) (leWord 32 (slice b 0 4))
      (leWord 32 (slice b 4 4)) (leWord 32 (slice b 8 4)) (leWord 32 (slice b 12 4))) ∧
  (∀ (m b : List Byte) (h : Lanes64), m.length % 16 = 0 → b.length = 16 →
    foldedLanes 16 block64 h (m ++ b) = round64 (foldedLanes 16 block64 h m) (leWord 64 (slice b 0 8))
      (leWord 64 (slice b 8 8)))

/-! ### Messages -/

/-- R38 items 3 and 4 for a given seed and message: `INIT` leaves an engine that is not in `FAULT` holding the empty message;
an instruction that leaves the message open, with room for its bytes, completes and leaves the engine holding the message
and those bytes; `FINAL` leaves the digest of the message under the seed. -/
def Obligations.MessageGrowsByTheBytesPushed : Prop :=
  ∀ (seed : Word32) (m : List Byte) (s : State),
    (s.e32.phase ≠ .fault → ∃ t, exec (.init32 seed) s = .next t ∧ t.e32.Holds (init32 seed) block32 []) ∧
    (∀ i : Instr, s.e32.Holds (init32 seed) block32 m → leavesOpen .e32 i →
      m.length + (pushedTo .e32 i).length ≤ 2 ^ 64 - 1 →
      ∃ t, exec i s = .next t ∧ t.e32.Holds (init32 seed) block32 (m ++ pushedTo .e32 i)) ∧
    (s.e32.Holds (init32 seed) block32 m → ∃ t, exec .final32 s = .next t ∧
      t.e32.phase = .done ∧ t.e32.h = hash32 m seed ∧ t.e32.len.toNat = m.length) ∧
    (s.e86.phase ≠ .fault → ∃ t, exec (.init86 seed) s = .next t ∧ t.e86.Holds (init86 seed) block86 []) ∧
    (∀ i : Instr, s.e86.Holds (init86 seed) block86 m → leavesOpen .e86 i →
      m.length + (pushedTo .e86 i).length ≤ 2 ^ 64 - 1 →
      ∃ t, exec i s = .next t ∧ t.e86.Holds (init86 seed) block86 (m ++ pushedTo .e86 i)) ∧
    (s.e86.Holds (init86 seed) block86 m → ∃ t, exec .final86 s = .next t ∧
      t.e86.phase = .done ∧ t.e86.h = hash128x86 m seed ∧ t.e86.len.toNat = m.length) ∧
    (s.e64.phase ≠ .fault → ∃ t, exec (.init64 seed) s = .next t ∧ t.e64.Holds (init64 seed) block64 []) ∧
    (∀ i : Instr, s.e64.Holds (init64 seed) block64 m → leavesOpen .e64 i →
      m.length + (pushedTo .e64 i).length ≤ 2 ^ 64 - 1 →
      ∃ t, exec i s = .next t ∧ t.e64.Holds (init64 seed) block64 (m ++ pushedTo .e64 i)) ∧
    (s.e64.Holds (init64 seed) block64 m → ∃ t, exec .final64 s = .next t ∧
      t.e64.phase = .done ∧ t.e64.h = hash128x64 m seed ∧ t.e64.len.toNat = m.length)
end

