-- ==== Sys2Proof/Laws/Bytes.lean ====
section
/-! SUPPORT. Little-endian decoding and the fold over blocks: the facts later proofs cite instead of unfolding them. -/

namespace Sys2Proof.Machine

@[simp] theorem leNat_nil : leNat [] = 0 := rfl

@[simp] theorem leNat_cons (b : Byte) (bs : List Byte) : leNat (b :: bs) = b.toNat + 256 * leNat bs := rfl

theorem leNat_append (as bs : List Byte) : leNat (as ++ bs) = leNat as + 256 ^ as.length * leNat bs := by
  induction as with
  | nil => simp
  | cons a as ih => simp only [List.cons_append, leNat_cons, ih, List.length_cons, pow_succ]; ring

theorem leNat_lt (bs : List Byte) : leNat bs < 256 ^ bs.length := by
  induction bs with
  | nil => simp
  | cons b bs ih =>
    have hb : b.toNat < 256 := b.isLt
    simp only [leNat_cons, List.length_cons, pow_succ]
    omega

@[simp] theorem leNat_replicate_zero (n : Nat) : leNat (List.replicate n 0#8) = 0 := by
  induction n with
  | zero => rfl
  | succ n ih => simp [List.replicate_succ, ih]

/-- Zero bytes at the end do not change a little-endian word (20_memory.md R55). -/
theorem leWord_append_zeros (W : Nat) (bs : List Byte) (n : Nat) :
    leWord W (bs ++ List.replicate n 0#8) = leWord W bs := by
  simp [leWord, leNat_append]

/-- Folding `nb + 1` blocks is folding the last one into the lanes of the first `nb`. -/
theorem absorbBlocks_succ {L : Type} (B : Nat) (block : L → List Byte → L) (nb : Nat) (h : L) (m : List Byte) :
    absorbBlocks B block (nb + 1) h m = block (absorbBlocks B block nb h m) (slice m (B * nb) B) := by
  induction nb generalizing h m with
  | zero => simp [absorbBlocks, slice]
  | succ nb ih =>
    rw [absorbBlocks, ih]
    simp [absorbBlocks, slice, List.drop_drop, Nat.mul_succ, Nat.add_comm]

/-- What follows the folded blocks plays no part. -/
theorem absorbBlocks_append {L : Type} (B : Nat) (block : L → List Byte → L) (nb : Nat) (h : L) (m r : List Byte)
    (hm : B * nb ≤ m.length) : absorbBlocks B block nb h (m ++ r) = absorbBlocks B block nb h m := by
  induction nb generalizing h m with
  | zero => rfl
  | succ nb ih =>
    rw [Nat.mul_succ] at hm
    have hB : B ≤ m.length := by omega
    rw [absorbBlocks, absorbBlocks, List.take_append_of_le_length hB, List.drop_append_of_le_length hB]
    exact ih _ _ (by rw [List.length_drop]; omega)

theorem length_tailOf (B : Nat) (m : List Byte) : (tailOf B m).length = m.length % B := by
  simp only [tailOf, List.length_drop]
  have := Nat.div_add_mod m.length B
  omega

/-- A byte that does not complete a block: the folded lanes stay, the tail grows. -/
theorem folded_append_byte {L : Type} {B : Nat} (block : L → List Byte → L) (h : L) (m : List Byte) (b : Byte)
    (hB : m.length % B + 1 < B) :
    foldedLanes B block h (m ++ [b]) = foldedLanes B block h m ∧ tailOf B (m ++ [b]) = tailOf B m ++ [b] := by
  have hd := Nat.div_add_mod m.length B
  have hq : (m ++ [b]).length / B = m.length / B := by
    rw [List.length_append, List.length_singleton]
    exact Nat.div_eq_of_lt_le (by rw [Nat.mul_comm]; omega) (by rw [Nat.add_mul, Nat.mul_comm]; omega)
  constructor
  · rw [foldedLanes, hq, absorbBlocks_append _ _ _ _ _ _ (by omega), foldedLanes]
  · rw [tailOf, hq, List.drop_append_of_le_length (by omega), tailOf]

/-- The byte that completes a block: the block step runs on the tail and that byte, and the tail is empty. -/
theorem folded_append_last {L : Type} {B : Nat} (block : L → List Byte → L) (h : L) (m : List Byte) (b : Byte)
    (hB : m.length % B + 1 = B) :
    foldedLanes B block h (m ++ [b]) = block (foldedLanes B block h m) (tailOf B m ++ [b]) ∧
      tailOf B (m ++ [b]) = [] := by
  have hd := Nat.div_add_mod m.length B
  have hq : (m ++ [b]).length / B = m.length / B + 1 := by
    rw [List.length_append, List.length_singleton]
    apply Nat.div_eq_of_lt_le
    · rw [Nat.add_mul, Nat.mul_comm]; omega
    · rw [Nat.add_mul, Nat.add_mul, Nat.mul_comm]; omega
  constructor
  · rw [foldedLanes, hq, absorbBlocks_succ, absorbBlocks_append _ _ _ _ _ _ (by omega)]
    have hs : slice (m ++ [b]) (B * (m.length / B)) B = tailOf B m ++ [b] := by
      rw [slice, List.drop_append_of_le_length (by omega), tailOf, List.take_of_length_le]
      simp only [List.length_append, List.length_drop, List.length_singleton]
      omega
    rw [hs, foldedLanes]
  · rw [tailOf, hq, List.drop_eq_nil_of_le]
    simp only [List.length_append, List.length_singleton, Nat.mul_add]
    omega

end Sys2Proof.Machine
end

