-- ==== Sys2Proof/Laws/State.lean ====
section
/-! SUPPORT. One lemma per field of the state and per update of it, each true by `rfl`. -/

namespace Sys2Proof.Machine

variable (s : State)

/-! ### `State.onE32` -/

@[simp] theorem State.onE32_e32 (f : Engine32 → Engine32) : (s.onE32 f).e32 = s.e32.unlessFault f := rfl
@[simp] theorem State.onE32_e86 (f : Engine32 → Engine32) : (s.onE32 f).e86 = s.e86 := rfl
@[simp] theorem State.onE32_e64 (f : Engine32 → Engine32) : (s.onE32 f).e64 = s.e64 := rfl
@[simp] theorem State.onE32_busy (f : Engine32 → Engine32) : (s.onE32 f).busy = s.busy := rfl
@[simp] theorem State.onE32_afterReset (f : Engine32 → Engine32) : (s.onE32 f).afterReset = s.afterReset := rfl
@[simp] theorem State.onE32_waiting (f : Engine32 → Engine32) : (s.onE32 f).waiting = s.waiting := rfl
@[simp] theorem State.onE32_pins (f : Engine32 → Engine32) : (s.onE32 f).pins = s.pins := rfl
@[simp] theorem State.onE32_plan (f : Engine32 → Engine32) : (s.onE32 f).plan = s.plan := rfl
@[simp] theorem State.onE32_stalls (f : Engine32 → Engine32) : (s.onE32 f).stalls = s.stalls := rfl
@[simp] theorem State.onE32_tick (f : Engine32 → Engine32) : (s.onE32 f).tick = s.tick := rfl

/-! ### `State.onE86` -/

@[simp] theorem State.onE86_e32 (f : Engine86 → Engine86) : (s.onE86 f).e32 = s.e32 := rfl
@[simp] theorem State.onE86_e86 (f : Engine86 → Engine86) : (s.onE86 f).e86 = s.e86.unlessFault f := rfl
@[simp] theorem State.onE86_e64 (f : Engine86 → Engine86) : (s.onE86 f).e64 = s.e64 := rfl
@[simp] theorem State.onE86_busy (f : Engine86 → Engine86) : (s.onE86 f).busy = s.busy := rfl
@[simp] theorem State.onE86_afterReset (f : Engine86 → Engine86) : (s.onE86 f).afterReset = s.afterReset := rfl
@[simp] theorem State.onE86_waiting (f : Engine86 → Engine86) : (s.onE86 f).waiting = s.waiting := rfl
@[simp] theorem State.onE86_pins (f : Engine86 → Engine86) : (s.onE86 f).pins = s.pins := rfl
@[simp] theorem State.onE86_plan (f : Engine86 → Engine86) : (s.onE86 f).plan = s.plan := rfl
@[simp] theorem State.onE86_stalls (f : Engine86 → Engine86) : (s.onE86 f).stalls = s.stalls := rfl
@[simp] theorem State.onE86_tick (f : Engine86 → Engine86) : (s.onE86 f).tick = s.tick := rfl

/-! ### `State.onE64` -/

@[simp] theorem State.onE64_e32 (f : Engine64 → Engine64) : (s.onE64 f).e32 = s.e32 := rfl
@[simp] theorem State.onE64_e86 (f : Engine64 → Engine64) : (s.onE64 f).e86 = s.e86 := rfl
@[simp] theorem State.onE64_e64 (f : Engine64 → Engine64) : (s.onE64 f).e64 = s.e64.unlessFault f := rfl
@[simp] theorem State.onE64_busy (f : Engine64 → Engine64) : (s.onE64 f).busy = s.busy := rfl
@[simp] theorem State.onE64_afterReset (f : Engine64 → Engine64) : (s.onE64 f).afterReset = s.afterReset := rfl
@[simp] theorem State.onE64_waiting (f : Engine64 → Engine64) : (s.onE64 f).waiting = s.waiting := rfl
@[simp] theorem State.onE64_pins (f : Engine64 → Engine64) : (s.onE64 f).pins = s.pins := rfl
@[simp] theorem State.onE64_plan (f : Engine64 → Engine64) : (s.onE64 f).plan = s.plan := rfl
@[simp] theorem State.onE64_stalls (f : Engine64 → Engine64) : (s.onE64 f).stalls = s.stalls := rfl
@[simp] theorem State.onE64_tick (f : Engine64 → Engine64) : (s.onE64 f).tick = s.tick := rfl

/-! ### `State.raiseFault` -/

@[simp] theorem State.raiseFault_e32 (T : Target) (c : Cause) : (s.raiseFault T c).e32 = (if T.has .e32 then s.e32.takeFault c else s.e32) := rfl
@[simp] theorem State.raiseFault_e86 (T : Target) (c : Cause) : (s.raiseFault T c).e86 = (if T.has .e86 then s.e86.takeFault c else s.e86) := rfl
@[simp] theorem State.raiseFault_e64 (T : Target) (c : Cause) : (s.raiseFault T c).e64 = (if T.has .e64 then s.e64.takeFault c else s.e64) := rfl
@[simp] theorem State.raiseFault_busy (T : Target) (c : Cause) : (s.raiseFault T c).busy = s.busy := rfl
@[simp] theorem State.raiseFault_afterReset (T : Target) (c : Cause) : (s.raiseFault T c).afterReset = s.afterReset := rfl
@[simp] theorem State.raiseFault_waiting (T : Target) (c : Cause) : (s.raiseFault T c).waiting = s.waiting := rfl
@[simp] theorem State.raiseFault_pins (T : Target) (c : Cause) : (s.raiseFault T c).pins = s.pins := rfl
@[simp] theorem State.raiseFault_plan (T : Target) (c : Cause) : (s.raiseFault T c).plan = s.plan := rfl
@[simp] theorem State.raiseFault_stalls (T : Target) (c : Cause) : (s.raiseFault T c).stalls = s.stalls := rfl
@[simp] theorem State.raiseFault_tick (T : Target) (c : Cause) : (s.raiseFault T c).tick = s.tick := rfl

/-! ### `State.drivePins` -/

@[simp] theorem State.drivePins_e32 (p : PrimPins) : (s.drivePins p).e32 = s.e32 := rfl
@[simp] theorem State.drivePins_e86 (p : PrimPins) : (s.drivePins p).e86 = s.e86 := rfl
@[simp] theorem State.drivePins_e64 (p : PrimPins) : (s.drivePins p).e64 = s.e64 := rfl
@[simp] theorem State.drivePins_busy (p : PrimPins) : (s.drivePins p).busy = s.busy := rfl
@[simp] theorem State.drivePins_afterReset (p : PrimPins) : (s.drivePins p).afterReset = s.afterReset := rfl
@[simp] theorem State.drivePins_waiting (p : PrimPins) : (s.drivePins p).waiting = s.waiting := rfl
@[simp] theorem State.drivePins_pins (p : PrimPins) : (s.drivePins p).pins = p := rfl
@[simp] theorem State.drivePins_plan (p : PrimPins) : (s.drivePins p).plan = s.plan := rfl
@[simp] theorem State.drivePins_stalls (p : PrimPins) : (s.drivePins p).stalls = s.stalls := rfl
@[simp] theorem State.drivePins_tick (p : PrimPins) : (s.drivePins p).tick = s.tick := rfl

/-! ### `State.applyReset` -/

@[simp] theorem State.applyReset_e32 : (s.applyReset).e32 = Engine32.reset := rfl
@[simp] theorem State.applyReset_e86 : (s.applyReset).e86 = Engine86.reset := rfl
@[simp] theorem State.applyReset_e64 : (s.applyReset).e64 = Engine64.reset := rfl
@[simp] theorem State.applyReset_busy : (s.applyReset).busy = 0 := rfl
@[simp] theorem State.applyReset_afterReset : (s.applyReset).afterReset = true := rfl
@[simp] theorem State.applyReset_waiting : (s.applyReset).waiting = none := rfl
@[simp] theorem State.applyReset_pins : (s.applyReset).pins = s.pins := rfl
@[simp] theorem State.applyReset_plan : (s.applyReset).plan = s.plan := rfl
@[simp] theorem State.applyReset_stalls : (s.applyReset).stalls = s.stalls := rfl
@[simp] theorem State.applyReset_tick : (s.applyReset).tick = s.tick := rfl

/-! ### `State.accept` -/

@[simp] theorem State.accept_e32 : (s.accept).e32 = s.e32 := rfl
@[simp] theorem State.accept_e86 : (s.accept).e86 = s.e86 := rfl
@[simp] theorem State.accept_e64 : (s.accept).e64 = s.e64 := rfl
@[simp] theorem State.accept_busy : (s.accept).busy = s.stalls.headD 0 := rfl
@[simp] theorem State.accept_afterReset : (s.accept).afterReset = false := rfl
@[simp] theorem State.accept_waiting : (s.accept).waiting = none := rfl
@[simp] theorem State.accept_pins : (s.accept).pins = s.pins := rfl
@[simp] theorem State.accept_plan : (s.accept).plan = s.plan := rfl
@[simp] theorem State.accept_stalls : (s.accept).stalls = s.stalls.tail := rfl
@[simp] theorem State.accept_tick : (s.accept).tick = s.tick := rfl

/-! ### `State.stall` -/

@[simp] theorem State.stall_e32 (valid : Bool) (w : CmdWord) : (s.stall valid w).e32 = s.e32 := rfl
@[simp] theorem State.stall_e86 (valid : Bool) (w : CmdWord) : (s.stall valid w).e86 = s.e86 := rfl
@[simp] theorem State.stall_e64 (valid : Bool) (w : CmdWord) : (s.stall valid w).e64 = s.e64 := rfl
@[simp] theorem State.stall_busy (valid : Bool) (w : CmdWord) : (s.stall valid w).busy = s.busy - 1 := rfl
@[simp] theorem State.stall_afterReset (valid : Bool) (w : CmdWord) : (s.stall valid w).afterReset = false := rfl
@[simp] theorem State.stall_waiting (valid : Bool) (w : CmdWord) : (s.stall valid w).waiting = (if valid then some w else none) := rfl
@[simp] theorem State.stall_pins (valid : Bool) (w : CmdWord) : (s.stall valid w).pins = s.pins := rfl
@[simp] theorem State.stall_plan (valid : Bool) (w : CmdWord) : (s.stall valid w).plan = s.plan := rfl
@[simp] theorem State.stall_stalls (valid : Bool) (w : CmdWord) : (s.stall valid w).stalls = s.stalls := rfl
@[simp] theorem State.stall_tick (valid : Bool) (w : CmdWord) : (s.stall valid w).tick = s.tick := rfl

/-! ### `State.hold` -/

@[simp] theorem State.hold_e32 : (s.hold).e32 = s.e32 := rfl
@[simp] theorem State.hold_e86 : (s.hold).e86 = s.e86 := rfl
@[simp] theorem State.hold_e64 : (s.hold).e64 = s.e64 := rfl
@[simp] theorem State.hold_busy : (s.hold).busy = s.busy := rfl
@[simp] theorem State.hold_afterReset : (s.hold).afterReset = false := rfl
@[simp] theorem State.hold_waiting : (s.hold).waiting = s.waiting := rfl
@[simp] theorem State.hold_pins : (s.hold).pins = s.pins := rfl
@[simp] theorem State.hold_plan : (s.hold).plan = s.plan := rfl
@[simp] theorem State.hold_stalls : (s.hold).stalls = s.stalls := rfl
@[simp] theorem State.hold_tick : (s.hold).tick = s.tick := rfl

/-! ### `State.advance` -/

@[simp] theorem State.advance_e32 : (s.advance).e32 = s.e32 := rfl
@[simp] theorem State.advance_e86 : (s.advance).e86 = s.e86 := rfl
@[simp] theorem State.advance_e64 : (s.advance).e64 = s.e64 := rfl
@[simp] theorem State.advance_busy : (s.advance).busy = s.busy := rfl
@[simp] theorem State.advance_afterReset : (s.advance).afterReset = s.afterReset := rfl
@[simp] theorem State.advance_waiting : (s.advance).waiting = s.waiting := rfl
@[simp] theorem State.advance_pins : (s.advance).pins = s.pins := rfl
@[simp] theorem State.advance_plan : (s.advance).plan = s.plan.tail := rfl
@[simp] theorem State.advance_stalls : (s.advance).stalls = s.stalls := rfl
@[simp] theorem State.advance_tick : (s.advance).tick = s.tick + 1 := rfl

end Sys2Proof.Machine
end

