-- ==== Sys2Proof/Laws/Ops.lean ====
section
/-! SUPPORT. One lemma per shared operation that says what it can do. -/

namespace Sys2Proof.Machine

variable {L : Type} {B : Nat}

/-! ### Taking a fault and the `FAULT` test -/

@[simp] theorem Engine.takeFault_frozen {e : Engine L B} (h : e.phase = .fault) (c : Cause) : e.takeFault c = e := by
  simp [Engine.takeFault, h]

theorem Engine.takeFault_running {e : Engine L B} (h : e.phase ≠ .fault) (c : Cause) :
    e.takeFault c = { e with phase := .fault, cause := some c } := by
  simp [Engine.takeFault, h]

@[simp] theorem Engine.takeFault_phase (e : Engine L B) (c : Cause) : (e.takeFault c).phase = .fault := by
  unfold Engine.takeFault
  split <;> simp_all

@[simp] theorem Engine.unlessFault_frozen {e : Engine L B} (h : e.phase = .fault) (f : Engine L B → Engine L B) :
    e.unlessFault f = e := by
  simp [Engine.unlessFault, h]

theorem Engine.unlessFault_running {e : Engine L B} (h : e.phase ≠ .fault) (f : Engine L B → Engine L B) :
    e.unlessFault f = f e := by
  simp [Engine.unlessFault, h]

/-! ### Pushing -/

variable [NeZero B] (block : L → List Byte → L)

@[simp] theorem Engine.pushByte_phase (b : Byte) (e : Engine L B) : (e.pushByte block b).phase = e.phase := by
  unfold Engine.pushByte
  dsimp only
  split <;> rfl

@[simp] theorem Engine.pushByte_cause (b : Byte) (e : Engine L B) : (e.pushByte block b).cause = e.cause := by
  unfold Engine.pushByte
  dsimp only
  split <;> rfl

@[simp] theorem Engine.pushByte_len (b : Byte) (e : Engine L B) : (e.pushByte block b).len = e.len + 1#64 := by
  unfold Engine.pushByte
  dsimp only
  split <;> rfl

theorem Engine.pushByte_inside {e : Engine L B} (b : Byte) (h : e.fill.val + 1 < B) :
    e.pushByte block b =
      { e with buf := e.buf.set e.fill.val b e.fill.isLt, fill := ⟨e.fill.val + 1, h⟩, len := e.len + 1#64 } := by
  simp [Engine.pushByte, h]

theorem Engine.pushByte_last {e : Engine L B} (b : Byte) (h : e.fill.val + 1 = B) :
    e.pushByte block b =
      { e with h := block e.h (e.buf.set e.fill.val b e.fill.isLt).toList, buf := zeroBuf B, fill := 0,
               len := e.len + 1#64 } := by
  simp [Engine.pushByte, h]

@[simp] theorem Engine.pushBytes_nil (e : Engine L B) : e.pushBytes block [] = e := rfl

@[simp] theorem Engine.pushBytes_cons (b : Byte) (bs : List Byte) (e : Engine L B) :
    e.pushBytes block (b :: bs) = (e.pushByte block b).pushBytes block bs := rfl

theorem Engine.pushBytes_append (as bs : List Byte) (e : Engine L B) :
    e.pushBytes block (as ++ bs) = (e.pushBytes block as).pushBytes block bs := by
  simp [Engine.pushBytes, List.foldl_append]

@[simp] theorem Engine.pushBytes_phase (bs : List Byte) (e : Engine L B) : (e.pushBytes block bs).phase = e.phase := by
  induction bs generalizing e with
  | nil => rfl
  | cons b bs ih => simp [ih]

@[simp] theorem Engine.pushBytes_cause (bs : List Byte) (e : Engine L B) : (e.pushBytes block bs).cause = e.cause := by
  induction bs generalizing e with
  | nil => rfl
  | cons b bs ih => simp [ih]

theorem Engine.pushBytes_len (bs : List Byte) (e : Engine L B) (h : e.len.toNat + bs.length ≤ Config.lenMax) :
    (e.pushBytes block bs).len.toNat = e.len.toNat + bs.length := by
  induction bs generalizing e with
  | nil => rfl
  | cons b bs ih =>
    have h64 : Config.lenMax = 2 ^ 64 - 1 := rfl
    simp only [List.length_cons] at h
    have h1 : (e.pushByte block b).len.toNat = e.len.toNat + 1 := by
      rw [Engine.pushByte_len, BitVec.toNat_add]
      simp
      omega
    rw [Engine.pushBytes_cons, ih _ (by omega), h1, List.length_cons]
    omega

/-- The three ways a push goes for an engine not in `FAULT` (R131, R132, R207, R208). -/
theorem Engine.push_cases (bs : List Byte) (e : Engine L B) :
    (e.phase ≠ .absorb ∧ e.push block bs = e.takeFault .pushPhase) ∨
    (e.phase = .absorb ∧ Config.lenMax < e.len.toNat + bs.length ∧ e.push block bs = e.takeFault .lenOverflow) ∨
    (e.phase = .absorb ∧ e.len.toNat + bs.length ≤ Config.lenMax ∧ e.push block bs = e.pushBytes block bs) := by
  unfold Engine.push
  split
  · exact .inl ⟨‹_›, rfl⟩
  · split
    · exact .inr (.inl ⟨by simp_all, ‹_›, rfl⟩)
    · exact .inr (.inr ⟨by simp_all, by omega, rfl⟩)

/-- The two ways a `FINAL` goes for an engine not in `FAULT` (R133, R209). -/
theorem Engine.finalize_cases (digest : L → List Byte → Word64 → L) (e : Engine L B) :
    (e.phase ≠ .absorb ∧ e.finalize digest = e.takeFault .finalPhase) ∨
    (e.phase = .absorb ∧ e.finalize digest =
      { e with phase := .done, h := digest e.h e.tail e.len, buf := zeroBuf B, fill := 0 }) := by
  unfold Engine.finalize
  split
  · exact .inl ⟨‹_›, rfl⟩
  · exact .inr ⟨by simp_all, rfl⟩

/-! ### The tail of the buffer -/

omit [NeZero B] in
@[simp] theorem Engine.length_tail (e : Engine L B) : e.tail.length = e.fill.val := by
  simp [Engine.tail, Nat.le_of_lt e.fill.isLt]

omit [NeZero B] in
/-- A byte stored at `fill` stands at the end of the tail. -/
theorem take_set_toList (buf : Vector Byte B) (n : Nat) (hn : n < B) (b : Byte) :
    (buf.set n b hn).toList.take (n + 1) = buf.toList.take n ++ [b] := by
  rw [Vector.toList_set, List.take_add_one]
  simp [List.take_set_of_le, hn]

end Sys2Proof.Machine
end

