-- ==== Sys2Proof/Laws/Step.lean ====
section
/-! SUPPORT. What one instruction and one step can do, said once: later proofs split on these lemmas and unfold neither `exec`
nor `step`. -/

namespace Sys2Proof.Machine

/-- Every instruction answers a next state. -/
theorem exec_isNext (i : Instr) (s : State) : ∃ t, exec i s = .next t := by
  cases i <;> exact ⟨_, rfl⟩

/-- Every word on a port has a next state. -/
theorem runPort_isNext (p : PortWord) (s : State) : ∃ t, runPort p s = .next t := by
  unfold runPort
  split
  · exact exec_isNext _ _
  · exact ⟨_, rfl⟩

/-- What a command does to the engine it addresses, by its kind. -/
def Engine.applied {L : Type} {B : Nat} [NeZero B] (init : Word32 → L) (block : L → List Byte → L)
    (digest : L → List Byte → Word64 → L) (k : Kind) (seed : Word32) (bs : List Byte) (e : Engine L B) : Engine L B :=
  match k with
  | .init => e.openMessage (init seed)
  | .push => e.push block bs
  | .final => e.finalize digest

/-- The four things an instruction can do: nothing but the pins, or one command of one engine. -/
theorem exec_cases {i : Instr} {s t : State} (h : exec i s = .next t) :
    (kindOf i = none ∧ i.engine = none ∧ (t = s ∨ ∃ p, t = s.drivePins p)) ∨
    (∃ k, kindOf i = some k ∧ i.engine = some .e32 ∧
      t = s.onE32 (Engine.applied init32 block32 digest32 k (seedOf i) (pushedTo .e32 i))) ∨
    (∃ k, kindOf i = some k ∧ i.engine = some .e86 ∧
      t = s.onE86 (Engine.applied init86 block86 digest86 k (seedOf i) (pushedTo .e86 i))) ∨
    (∃ k, kindOf i = some k ∧ i.engine = some .e64 ∧
      t = s.onE64 (Engine.applied init64 block64 digest64 k (seedOf i) (pushedTo .e64 i))) := by
  cases i <;> simp only [exec] at h <;> cases h
  case nop => exact .inl ⟨rfl, rfl, .inl rfl⟩
  case rotl32 x r | rotl64 x r | fmix32 x r | fmix64 x r => exact .inl ⟨rfl, rfl, .inr ⟨_, rfl⟩⟩
  case init32 | pushb32 | pushw32 | final32 => exact .inr (.inl ⟨_, rfl, rfl, rfl⟩)
  case init86 | pushb86 | pushw86 | final86 => exact .inr (.inr (.inl ⟨_, rfl, rfl, rfl⟩))
  case init64 | pushb64 | pushw64 | final64 => exact .inr (.inr (.inr ⟨_, rfl, rfl, rfl⟩))

/-- The two things a word on a port can do. -/
theorem runPort_cases {p : PortWord} {s t : State} (h : runPort p s = .next t) :
    (∃ i, decodePort p = .instr i ∧ exec i s = .next t) ∨
    (∃ T c, decodePort p = .bad T c ∧ t = s.raiseFault T (rejectCause c)) := by
  unfold runPort at h
  split at h
  · exact .inl ⟨_, ‹_›, h⟩
  · cases h
    exact .inr ⟨_, _, ‹_›, rfl⟩

/-- The five ways a step goes on. -/
theorem step_cases {s t : State} (h : step s = .next t) :
    (∃ valid w, s.nextAct = .edge true valid w ∧ t = s.advance.applyReset) ∨
    (∃ w, s.nextAct = .edge false false w ∧ s.cmdReady = true ∧ t = s.advance.hold) ∨
    (∃ valid w, s.nextAct = .edge false valid w ∧ s.cmdReady = false ∧ t = s.advance.stall valid w) ∨
    (∃ w, s.nextAct = .edge false true w ∧ s.cmdReady = true ∧ (s.waiting = none ∨ s.waiting = some w) ∧
      runPort (.command w) s.advance.accept = .next t) ∨
    (∃ p, s.nextAct = .prim p ∧ runPort (.primitive p) s.advance = .next t) := by
  unfold step fetch at h
  cases hact : s.nextAct with
  | prim p =>
    rw [hact] at h
    exact .inr (.inr (.inr (.inr ⟨p, rfl, h⟩)))
  | edge rst valid w =>
    simp only [hact] at h
    cases rst with
    | true =>
      simp only [clockEdge, if_true] at h
      cases h
      exact .inl ⟨valid, w, rfl, rfl⟩
    | false =>
      cases hb : s.advance.breaksHandshake valid w with
      | true => simp [clockEdge, hb] at h
      | false =>
        have hr : s.advance.cmdReady = s.cmdReady := rfl
        cases hc : s.cmdReady with
        | false =>
          simp only [clockEdge, hb, hr, hc, Bool.false_eq_true, if_false] at h
          cases h
          exact .inr (.inr (.inl ⟨valid, w, rfl, rfl, rfl⟩))
        | true =>
          cases valid with
          | false =>
            simp only [clockEdge, hb, hr, hc, Bool.false_eq_true, if_false, if_true] at h
            cases h
            exact .inr (.inl ⟨w, rfl, rfl, rfl⟩)
          | true =>
            simp only [clockEdge, hb, hr, hc, Bool.false_eq_true, if_false, if_true] at h
            refine .inr (.inr (.inr (.inl ⟨w, rfl, rfl, ?_, h⟩)))
            have hw : s.advance.waiting = s.waiting := rfl
            unfold State.breaksHandshake at hb
            rw [hw] at hb
            cases hwt : s.waiting with
            | none => exact .inl rfl
            | some w' =>
              rw [hwt] at hb
              exact .inr (by simp at hb; rw [hb])

/-! ### Runs -/

/-- The first step of a run that goes on. -/
theorem run_step {s t : State} (h : step s = .next t) (n : Nat) :
    Host.Core.run core (n + 1) s = Host.Core.run core n t := by
  have key : ∀ (M : Host.Core) (s t : M.State), M.step s = .next t → M.run (n + 1) s = M.run n t := by
    intro M s t h
    simp only [Host.Core.run, h]
  exact key core s t h

/-- A run in two parts. -/
theorem run_append {s t : State} {a : Nat} (h : Host.Core.run core a s = .next t) (b : Nat) :
    Host.Core.run core (a + b) s = Host.Core.run core b t := by
  have key : ∀ (M : Host.Core) (s t : M.State), M.run a s = .next t → M.run (a + b) s = M.run b t := by
    clear h
    intro M
    induction a with
    | zero => intro s t h; cases h; rw [Nat.zero_add]
    | succ a ih =>
      intro s t h
      rw [Nat.add_right_comm]
      simp only [Host.Core.run] at h ⊢
      cases hs : M.step s with
      | next u => simp only [hs] at h; exact ih u t h
      | fault r => simp only [hs] at h; cases h
      | refused r => simp only [hs] at h; cases h
  exact key core s t h

end Sys2Proof.Machine
end

