-- ==== Sys2Proof/Laws/Invariants.lean ====
section
/-! SUPPORT. Each shared operation keeps the invariants of 10_state.md R38 for one engine. -/

namespace Sys2Proof.Machine

variable {L : Type} {B : Nat} [NeZero B] {zero : L} {e : Engine L B}

/-! ### `Engine.Sound` -/

theorem Engine.Sound.resetTo (zero : L) : (Engine.resetTo zero : Engine L B).Sound zero := by
  refine ⟨fun i _ => ?_, by simp, ?_, ?_, ?_⟩ <;> simp [Engine.resetTo]

theorem Engine.Sound.takeFault (h : e.Sound zero) (c : Cause) : (e.takeFault c).Sound zero := by
  by_cases hf : e.phase = .fault
  · simpa [hf] using h
  · rw [Engine.takeFault_running hf]
    exact ⟨h.1, by simp, by simp, by simp, by simp⟩

/-- An engine not in `FAULT` has no cause (R29). -/
theorem Engine.Sound.cause_none (h : e.Sound zero) (hf : e.phase ≠ .fault) : e.cause = none := by
  by_contra hc
  exact hf (h.2.2.2.2.2 hc)

theorem Engine.Sound.openMessage (h : e.Sound zero) (hf : e.phase ≠ .fault) (h0 : L) : (e.openMessage h0).Sound zero := by
  refine ⟨fun i _ => ?_, ?_, ?_, ?_, ?_⟩ <;> simp [Engine.openMessage, h.cause_none hf]

/-- A byte pushed adds one to the length, which does not wrap. -/
theorem Engine.toNat_pushByte_len (block : L → List Byte → L) (b : Byte) (hl : e.len.toNat + 1 ≤ Config.lenMax) :
    (e.pushByte block b).len.toNat = e.len.toNat + 1 := by
  unfold Config.lenMax at hl
  rw [Engine.pushByte_len, BitVec.toNat_add]
  simp
  omega

theorem Engine.Sound.pushByte (h : e.Sound zero) (block : L → List Byte → L) (b : Byte) (ha : e.phase = .absorb)
    (hl : e.len.toNat + 1 ≤ Config.lenMax) : (e.pushByte block b).Sound zero := by
  have hc := h.cause_none (by simp [ha])
  have hfill := h.2.2.1 ha
  have hlen := Engine.toNat_pushByte_len block b hl
  have hB := e.fill.isLt
  by_cases hlt : e.fill.val + 1 < B
  · rw [Engine.pushByte_inside _ _ hlt] at hlen ⊢
    refine ⟨fun i hi => ?_, by simp [ha], fun _ => ?_, by simp [ha], by simp [ha, hc]⟩
    · have hi' : e.fill.val + 1 ≤ i.val := hi
      have hz := h.1 i (show e.fill.val ≤ i.val by omega)
      simp only [Fin.getElem_fin] at hz ⊢
      rwa [Vector.getElem_set_ne _ _ (by omega)]
    · show e.fill.val + 1 = (e.len + 1#64).toNat % B
      rw [hlen, Nat.add_mod, ← hfill, Nat.mod_eq_of_lt (a := 1) (by omega), Nat.mod_eq_of_lt hlt]
  · have hlast : e.fill.val + 1 = B := by omega
    rw [Engine.pushByte_last _ _ hlast] at hlen ⊢
    refine ⟨fun i _ => by simp, by simp [ha], fun _ => ?_, by simp [ha], by simp [ha, hc]⟩
    show (0 : Fin B).val = (e.len + 1#64).toNat % B
    have hd := Nat.div_add_mod e.len.toNat B
    rw [hlen, Fin.val_zero, ← hd, ← hfill, Nat.add_assoc, hlast]
    simp

theorem Engine.Sound.pushBytes (h : e.Sound zero) (block : L → List Byte → L) (bs : List Byte) (ha : e.phase = .absorb)
    (hl : e.len.toNat + bs.length ≤ Config.lenMax) : (e.pushBytes block bs).Sound zero := by
  induction bs generalizing e with
  | nil => exact h
  | cons b bs ih =>
    rw [List.length_cons] at hl
    refine ih (h.pushByte block b ha (by omega)) (by simpa using ha) ?_
    rw [Engine.toNat_pushByte_len block b (by omega)]
    omega

theorem Engine.Sound.push (h : e.Sound zero) (block : L → List Byte → L) (bs : List Byte) :
    (e.push block bs).Sound zero := by
  rcases Engine.push_cases block bs e with ⟨_, he⟩ | ⟨_, _, he⟩ | ⟨ha, hl, he⟩ <;> rw [he]
  · exact h.takeFault _
  · exact h.takeFault _
  · exact h.pushBytes block bs ha hl

theorem Engine.Sound.finalize (h : e.Sound zero) (digest : L → List Byte → Word64 → L) :
    (e.finalize digest).Sound zero := by
  rcases Engine.finalize_cases digest e with ⟨_, he⟩ | ⟨ha, he⟩ <;> rw [he]
  · exact h.takeFault _
  · exact ⟨fun i _ => by simp, by simp, by simp, by simp, by simp [h.cause_none (by simp [ha])]⟩

/-! ### `Engine.Holds` -/

variable {h0 : L} {block : L → List Byte → L} {m : List Byte}

/-- After `INIT` an engine holds the empty message. -/
theorem Engine.holds_openMessage (e : Engine L B) : (e.openMessage h0).Holds h0 block [] := by
  refine ⟨rfl, rfl, ?_, ?_⟩ <;> simp [Engine.openMessage, foldedLanes, absorbBlocks, Engine.tail, tailOf]

/-- A byte pushed to an engine that holds `m` leaves it holding `m` and that byte. -/
theorem Engine.Holds.pushByte (h : e.Holds h0 block m) (b : Byte) (hl : e.len.toNat + 1 ≤ Config.lenMax) :
    (e.pushByte block b).Holds h0 block (m ++ [b]) := by
  obtain ⟨ha, h1, h2, h3⟩ := h
  refine ⟨by simpa using ha, by rw [Engine.toNat_pushByte_len block b hl, h1]; simp, ?_⟩
  have hlen := congrArg List.length h3
  rw [length_tailOf, Engine.length_tail] at hlen
  have hB := e.fill.isLt
  by_cases hlt : e.fill.val + 1 < B
  · have hm := folded_append_byte (B := B) block h0 m b (by omega)
    rw [Engine.pushByte_inside _ _ hlt, hm.1, hm.2, ← h3]
    exact ⟨h2, take_set_toList _ _ hB _⟩
  · have hlast : e.fill.val + 1 = B := by omega
    have hm := folded_append_last (B := B) block h0 m b (by omega)
    have hfull := take_set_toList e.buf e.fill.val hB b
    rw [hlast, List.take_of_length_le (by simp)] at hfull
    rw [Engine.pushByte_last _ _ hlast, hm.1, hm.2, ← h3, ← h2]
    exact ⟨by rw [hfull]; rfl, by simp [Engine.tail]⟩

/-- Bytes pushed to an engine that holds `m` leave it holding `m` and those bytes. -/
theorem Engine.Holds.pushBytes (h : e.Holds h0 block m) (bs : List Byte)
    (hl : m.length + bs.length ≤ Config.lenMax) : (e.pushBytes block bs).Holds h0 block (m ++ bs) := by
  induction bs generalizing e m with
  | nil => simpa using h
  | cons b bs ih =>
    rw [List.length_cons] at hl
    have hb := h.pushByte b (by rw [h.2.1]; omega)
    have := ih hb (by simp; omega)
    rwa [List.append_assoc, List.singleton_append] at this

end Sys2Proof.Machine
end

