-- ==== Sys2Proof/Laws/Messages.lean ====
section
/-! SUPPORT. What the next step runs, and what each engine has been told: the facts the proofs of 10_state.md R38 items 3 and 4
cite. -/

namespace Sys2Proof.Machine

/-- What the host's next action can bring: a refusal, a quiet edge (the engines as they are, or reset), or a word to run with
the engines as they are. -/
theorem fetch_cases (s : State) :
    (∃ r, fetch s = .refuse r) ∨
    (∃ s', fetch s = .quiet s' ∧
      ((s'.e32 = s.e32 ∧ s'.e86 = s.e86 ∧ s'.e64 = s.e64) ∨ s' = s.advance.applyReset)) ∨
    (∃ p s', fetch s = .run p s' ∧ s'.e32 = s.e32 ∧ s'.e86 = s.e86 ∧ s'.e64 = s.e64) := by
  unfold fetch
  split
  · exact .inr (.inr ⟨_, _, rfl, rfl, rfl, rfl⟩)
  · unfold clockEdge
    split
    · exact .inr (.inl ⟨_, rfl, .inr rfl⟩)
    · split
      · exact .inl ⟨_, rfl⟩
      · split
        · split
          · exact .inr (.inr ⟨_, _, rfl, rfl, rfl, rfl⟩)
          · exact .inr (.inl ⟨_, rfl, .inl ⟨rfl, rfl, rfl⟩⟩)
        · exact .inr (.inl ⟨_, rfl, .inl ⟨rfl, rfl, rfl⟩⟩)

/-! ### What the next step runs -/

theorem stepInstr_run {s s' : State} {p : PortWord} {i : Instr} (h : fetch s = .run p s') (hd : decodePort p = .instr i) :
    stepInstr s = some i := by
  simp [stepInstr, h, hd]

theorem stepInstr_bad {s s' : State} {p : PortWord} {T : Target} {c : Reject} (h : fetch s = .run p s')
    (hd : decodePort p = .bad T c) : stepInstr s = none := by
  simp [stepInstr, h, hd]

theorem stepInstr_quiet {s s' : State} (h : fetch s = .quiet s') : stepInstr s = none := by
  simp [stepInstr, h]

/-! ### What an engine has been told -/

/-- An instruction pushes nothing to an engine it does not address. -/
theorem pushedTo_other {e : EngineId} {i : Instr} (h : i.engine ≠ some e) : pushedTo e i = [] := by
  cases i <;> cases e <;> simp_all [Instr.engine, pushedTo]

/-- An instruction that does not address the engine tells it nothing. -/
theorem Heard.after_other {e : EngineId} {i : Instr} (h : i.engine ≠ some e) (g : Heard) : g.after e i = g := by
  simp [Heard.after, h, pushedTo_other h]

/-- An `INIT` starts an empty message under its seed. -/
theorem Heard.after_init {e : EngineId} {i : Instr} (h : i.engine = some e) (hk : kindOf i = some .init) (g : Heard) :
    g.after e i = ⟨seedOf i, []⟩ := by
  simp [Heard.after, h, hk]

/-- Any other instruction adds the bytes it pushes. -/
theorem Heard.after_not_init {e : EngineId} {i : Instr} (hk : kindOf i ≠ some .init) (g : Heard) :
    g.after e i = ⟨g.seed, g.bytes ++ pushedTo e i⟩ := by
  simp [Heard.after, hk]
end Sys2Proof.Machine
end

