-- ==== Sys2Proof/Laws/PerInstr.lean ====
section
/-! SUPPORT. The family `EncodeWellFormed`, one lemma per instruction: its encoding is a legal word by the opcode map of
30_encoding.md R75, or, for a primitive operation, a setting of the pins, all of which R90 makes legal. -/

namespace Sys2Proof.Laws.EncodeWellFormed

/-- The instruction's encoding is well-formed. -/
def Statement (i : Instr) : Prop := (encode i).wellFormed = true

/-- A mask that keeps `op`, `eng` and `rsv` acts on the payload alone. -/
theorem commandWord_and (op : BitVec 4) (eng : BitVec 2) (pl m : Word32) :
    commandWord op eng pl &&& (15#4 ++ 3#2 ++ 3#2 ++ m : BitVec (4 + 2 + 2 + 32)) = commandWord op eng (pl &&& m) := by
  unfold commandWord
  rw [BitVec.and_append, BitVec.and_append, BitVec.and_append]
  have h4 : op &&& 15#4 = op := BitVec.and_allOnes
  have h2 : eng &&& 3#2 = eng := BitVec.and_allOnes
  rw [h4, h2]
  rfl

/-- The mask of the `INIT` and `PUSHW` rows, which leaves the payload free. -/
theorem commandWord_masked (op : BitVec 4) (eng : BitVec 2) (pl : Word32) :
    commandWord op eng pl &&& 0xFF00000000#40 = commandWord op eng 0#32 := by
  have h := commandWord_and op eng pl 0#32
  rwa [BitVec.and_zero] at h

/-- The mask of the `PUSHB` rows. -/
theorem pushb_masked (eng : BitVec 2) (b : Byte) :
    commandWord 2#4 eng (0#24 ++ b) &&& 0xFFFFFFFF00#40 = commandWord 2#4 eng 0#32 := by
  have h := commandWord_and 2#4 eng (0#24 ++ b) 0xFFFFFF00#32
  have hb : (0#24 ++ b : BitVec (24 + 8)) &&& (0xFFFFFF#24 ++ 0#8 : BitVec (24 + 8)) = 0#32 := by
    rw [BitVec.and_append, BitVec.and_zero, BitVec.zero_and]
    rfl
  exact h.trans (congrArg _ hb)

/-- The mask of the `NOP` row. -/
theorem nop_masked (hint : BitVec 36) : (0#4 ++ hint : BitVec (4 + 36)) &&& 0xF000000000#40 = 0#40 := by
  have h : (0#4 ++ hint : BitVec (4 + 36)) &&& (15#4 ++ 0#36 : BitVec (4 + 36)) = 0#4 ++ 0#36 := by
    rw [BitVec.and_append, BitVec.and_zero, BitVec.zero_and]
  exact h

/-- A word that fits a row of the map is well-formed. -/
theorem of_row {w : CmdWord} {r : OpcodeRow} (hr : r ∈ opcodeTable) (h : w &&& r.mask = r.pattern) :
    (PortWord.command w).wellFormed = true :=
  List.any_eq_true.2 ⟨r, hr, beq_iff_eq.2 h⟩

theorem nop (hint : BitVec 36) : Statement (.nop hint) :=
  of_row (r := ⟨"NOP", 0x0000000000#40, 0xF000000000#40⟩) (by decide) (nop_masked hint)

theorem init32 (seed : Word32) : Statement (.init32 seed) :=
  of_row (r := ⟨"INIT.32", 0x1000000000#40, 0xFF00000000#40⟩) (by decide) (commandWord_masked 1#4 0#2 seed)

theorem init86 (seed : Word32) : Statement (.init86 seed) :=
  of_row (r := ⟨"INIT.86", 0x1400000000#40, 0xFF00000000#40⟩) (by decide) (commandWord_masked 1#4 1#2 seed)

theorem init64 (seed : Word32) : Statement (.init64 seed) :=
  of_row (r := ⟨"INIT.64", 0x1800000000#40, 0xFF00000000#40⟩) (by decide) (commandWord_masked 1#4 2#2 seed)

theorem pushb32 (byte : Byte) : Statement (.pushb32 byte) :=
  of_row (r := ⟨"PUSHB.32", 0x2000000000#40, 0xFFFFFFFF00#40⟩) (by decide) (pushb_masked 0#2 byte)

theorem pushb86 (byte : Byte) : Statement (.pushb86 byte) :=
  of_row (r := ⟨"PUSHB.86", 0x2400000000#40, 0xFFFFFFFF00#40⟩) (by decide) (pushb_masked 1#2 byte)

theorem pushb64 (byte : Byte) : Statement (.pushb64 byte) :=
  of_row (r := ⟨"PUSHB.64", 0x2800000000#40, 0xFFFFFFFF00#40⟩) (by decide) (pushb_masked 2#2 byte)

theorem pushw32 (word : Word32) : Statement (.pushw32 word) :=
  of_row (r := ⟨"PUSHW.32", 0x3000000000#40, 0xFF00000000#40⟩) (by decide) (commandWord_masked 3#4 0#2 word)

theorem pushw86 (word : Word32) : Statement (.pushw86 word) :=
  of_row (r := ⟨"PUSHW.86", 0x3400000000#40, 0xFF00000000#40⟩) (by decide) (commandWord_masked 3#4 1#2 word)

theorem pushw64 (word : Word32) : Statement (.pushw64 word) :=
  of_row (r := ⟨"PUSHW.64", 0x3800000000#40, 0xFF00000000#40⟩) (by decide) (commandWord_masked 3#4 2#2 word)

theorem final32 : Statement .final32 := by unfold Statement; decide

theorem final86 : Statement .final86 := by unfold Statement; decide

theorem final64 : Statement .final64 := by unfold Statement; decide

theorem rotl32 (x : Word64) (r : BitVec 6) : Statement (.rotl32 x r) := rfl

theorem rotl64 (x : Word64) (r : BitVec 6) : Statement (.rotl64 x r) := rfl

theorem fmix32 (x : Word64) (r : BitVec 6) : Statement (.fmix32 x r) := rfl

theorem fmix64 (x : Word64) (r : BitVec 6) : Statement (.fmix64 x r) := rfl

end Sys2Proof.Laws.EncodeWellFormed
end

