-- ==== Sys2Proof/Tests/Slice0.lean ====
section
/-! SUPPORT. Tests. Expected values are those of 95_test_vectors.md, worked there from the rules, or are written out from
30_encoding.md R70 and R75. The last part has, for every statement with hypotheses, a state and operands that meet
them. -/

namespace Sys2Proof.Tests

open Sys2Proof.Machine

/-! ### Well-formedness: an ill-formed word for each check (95_test_vectors.md section 2.6) -/

theorem test_ill_formed_op : (PortWord.command 0x5000000000#40).wellFormed = false := by decide
theorem test_ill_formed_op_high : (PortWord.command 0xF800000000#40).wellFormed = false := by decide
theorem test_ill_formed_eng : (PortWord.command 0x1C00000000#40).wellFormed = false := by decide
theorem test_ill_formed_rsv_init : (PortWord.command 0x1100000000#40).wellFormed = false := by decide
theorem test_ill_formed_rsv_pushw : (PortWord.command 0x3A00000000#40).wellFormed = false := by decide
theorem test_ill_formed_pushb_payload : (PortWord.command 0x2400000100#40).wellFormed = false := by decide
theorem test_ill_formed_pushb_payload_high : (PortWord.command 0x2080000000#40).wellFormed = false := by decide
theorem test_ill_formed_final_payload : (PortWord.command 0x4800000001#40).wellFormed = false := by decide
theorem test_well_formed_hint : (PortWord.command 0x0FFFFFFFFF#40).wellFormed = true := by decide
theorem test_well_formed_pushb : (PortWord.command 0x24000000FF#40).wellFormed = true := by decide
theorem test_well_formed_primitive : (PortWord.primitive ⟨3#2, 0#64, 63#6⟩).wellFormed = true := by decide

/-! ### Decoding, word by word (95_test_vectors.md section 2.6; the fields of R70 written out) -/

theorem test_decode_nop : decode 0x0C00000000#40 = .instr (.nop 0xC00000000#36) := by decide
theorem test_decode_init32 : decode (0b0001_00_00#8 ++ 0#32) = .instr (.init32 0#32) := by decide
theorem test_decode_init86 : decode 0x149747B28C#40 = .instr (.init86 0x9747B28C#32) := by decide
theorem test_decode_init64 : decode 0x18FFFFFFFF#40 = .instr (.init64 0xFFFFFFFF#32) := by decide
theorem test_decode_pushb32 : decode 0x2000000061#40 = .instr (.pushb32 0x61#8) := by decide
theorem test_decode_pushb86 : decode 0x24000000FF#40 = .instr (.pushb86 0xFF#8) := by decide
theorem test_decode_pushb64 : decode 0x2800000000#40 = .instr (.pushb64 0x00#8) := by decide
theorem test_decode_pushw32 : decode 0x3064636261#40 = .instr (.pushw32 0x64636261#32) := by decide
theorem test_decode_pushw86 : decode 0x34FFFFFFFF#40 = .instr (.pushw86 0xFFFFFFFF#32) := by decide
theorem test_decode_pushw64 : decode 0x3800000000#40 = .instr (.pushw64 0#32) := by decide
theorem test_decode_final32 : decode 0x4000000000#40 = .instr .final32 := by decide
theorem test_decode_final86 : decode 0x4400000000#40 = .instr .final86 := by decide
theorem test_decode_final64 : decode 0x4800000000#40 = .instr .final64 := by decide
theorem test_decode_rotl32 : decodePrim ⟨0b00#2, 1#64, 40#6⟩ = .rotl32 1#64 40#6 := by decide
theorem test_decode_rotl64 : decodePrim ⟨0b01#2, 2#64, 33#6⟩ = .rotl64 2#64 33#6 := by decide
theorem test_decode_fmix32 : decodePrim ⟨0b10#2, 3#64, 0#6⟩ = .fmix32 3#64 0#6 := by decide
theorem test_decode_fmix64 : decodePrim ⟨0b11#2, 4#64, 17#6⟩ = .fmix64 4#64 17#6 := by decide

theorem test_decode_illegal_op : decode 0x5000000000#40 = .bad (.one .e32) .illegalOp := by decide
theorem test_decode_op_before_eng : decode 0xFC00000000#40 = .bad .all .illegalOp := by decide
theorem test_decode_op_before_rsv : decode 0x5300000000#40 = .bad (.one .e32) .illegalOp := by decide
theorem test_decode_eng : decode 0x1C00000000#40 = .bad .all .resEngine := by decide
theorem test_decode_eng_before_rsv : decode 0x2DFFFFFFFF#40 = .bad .all .resEngine := by decide
theorem test_decode_rsv : decode 0x3A00000000#40 = .bad (.one .e64) .resBits := by decide
theorem test_decode_pushb_payload : decode 0x2400000100#40 = .bad (.one .e86) .resBits := by decide
theorem test_decode_final_payload : decode 0x4080000000#40 = .bad (.one .e32) .resBits := by decide

/-- The words of the opcode table, as spec/opcode_table.json numbers their bits. -/
theorem test_table_words : decodeTableWord 40 0x4400000000 = some .final86 ∧ decodeTableWord 40 0x5000000000 = none ∧
    decodeTableWord 8 1 = some (.rotl64 0#64 0#6) ∧ decodeTableWord 8 3 = some (.fmix64 0#64 0#6) := by decide

/-! ### One command, run through a step from a small state (95_test_vectors.md section 2.7) -/

/-- `E32` after the step that accepts a word, the other engines being at reset. -/
def after32 (e : Engine32) (w : Nat) : Option Engine32 :=
  match step ({ State.reset with e32 := e }.withFetchWord 40 w) with
  | .next t => some t.e32
  | _ => none

/-- `E86` after the step that accepts a word. -/
def after86 (e : Engine86) (w : Nat) : Option Engine86 :=
  match step ({ State.reset with e86 := e }.withFetchWord 40 w) with
  | .next t => some t.e86
  | _ => none

/-- `E64` after the step that accepts a word. -/
def after64 (e : Engine64) (w : Nat) : Option Engine64 :=
  match step ({ State.reset with e64 := e }.withFetchWord 40 w) with
  | .next t => some t.e64
  | _ => none

/-- A buffer of sixteen bytes from its first ones, the rest zero. -/
def bytes16 (bs : List Byte) : Vector Byte 16 := Vector.ofFn fun i => bs.getD i 0#8

/-- `prim_y` after the step that sets the pins. -/
def primAfter (p : PrimPins) : Option Word64 :=
  match step (State.reset.withPort (.primitive p)) with
  | .next t => some t.primY
  | _ => none

theorem test_init32_restarts :
    after32 ⟨.absorb, none, 0x11111111#32, #v[0x61, 0x62, 0, 0], 2, 6#64⟩ 0x1000000005 =
      some ⟨.absorb, none, 0x00000005#32, #v[0, 0, 0, 0], 0, 0#64⟩ := by decide
theorem test_init32_in_fault :
    after32 ⟨.fault, some .pushPhase, 0x00000000#32, #v[0, 0, 0, 0], 0, 0#64⟩ 0x1000000000 =
      some ⟨.fault, some .pushPhase, 0x00000000#32, #v[0, 0, 0, 0], 0, 0#64⟩ := by decide
theorem test_pushb32_block :
    after32 ⟨.absorb, none, 0x00000000#32, #v[0x61, 0x62, 0x63, 0], 3, 3#64⟩ 0x2000000064 =
      some ⟨.absorb, none, 0x86A7049E#32, #v[0, 0, 0, 0], 0, 4#64⟩ := by decide
theorem test_pushb32_overflow :
    after32 ⟨.absorb, none, 0x12345678#32, #v[0xAA, 0xBB, 0xCC, 0], 3, 18446744073709551615#64⟩ 0x20000000DD =
      some ⟨.fault, some .lenOverflow, 0x12345678#32, #v[0xAA, 0xBB, 0xCC, 0], 3, 18446744073709551615#64⟩ :=
    by decide
theorem test_pushw32_straddles :
    after32 ⟨.absorb, none, 0x00000000#32, #v[0x61, 0, 0, 0], 1, 1#64⟩ 0x3065646362 =
      some ⟨.absorb, none, 0x86A7049E#32, #v[0x65, 0, 0, 0], 1, 5#64⟩ := by decide
theorem test_pushw32_last_that_fits :
    after32 ⟨.absorb, none, 0x12345678#32, #v[0xAA, 0xBB, 0xCC, 0], 3, 18446744073709551611#64⟩ 0x3000000000 =
      some ⟨.absorb, none, 0xFAEAAA34#32, #v[0, 0, 0, 0], 3, 18446744073709551615#64⟩ := by decide
theorem test_final32_digest :
    after32 ⟨.absorb, none, 0x86A7049E#32, #v[0x65, 0, 0, 0], 1, 5#64⟩ 0x4000000000 =
      some ⟨.done, none, 0xE89B9AF6#32, #v[0, 0, 0, 0], 0, 5#64⟩ := by decide
theorem test_final32_twice :
    after32 ⟨.done, none, 0xE89B9AF6#32, #v[0, 0, 0, 0], 0, 5#64⟩ 0x4000000000 =
      some ⟨.fault, some .finalPhase, 0xE89B9AF6#32, #v[0, 0, 0, 0], 0, 5#64⟩ := by decide
theorem test_nop_hint :
    after32 ⟨.absorb, none, 0x12345678#32, #v[0xAA, 0, 0, 0], 1, 9#64⟩ 0x0FFFFFFFFF =
      some ⟨.absorb, none, 0x12345678#32, #v[0xAA, 0, 0, 0], 1, 9#64⟩ := by decide
theorem test_reserved_bits :
    after32 ⟨.absorb, none, 0x12345678#32, #v[0xAA, 0, 0, 0], 1, 9#64⟩ 0x2100000061 =
      some ⟨.fault, some .resBits, 0x12345678#32, #v[0xAA, 0, 0, 0], 1, 9#64⟩ := by decide
theorem test_first_cause_kept :
    after32 ⟨.fault, some .pushPhase, 0x12345678#32, #v[0xAA, 0, 0, 0], 1, 9#64⟩ 0x5000000000 =
      some ⟨.fault, some .pushPhase, 0x12345678#32, #v[0xAA, 0, 0, 0], 1, 9#64⟩ := by decide

theorem test_init86 :
    after86 ⟨.idle, none, ⟨0#32, 0#32, 0#32, 0#32⟩, zeroBuf 16, 0, 0#64⟩ 0x1400000001 =
      some ⟨.absorb, none, ⟨0x1#32, 0x1#32, 0x1#32, 0x1#32⟩, zeroBuf 16, 0, 0#64⟩ := by decide
theorem test_pushb86_block :
    after86 ⟨.absorb, none, ⟨0#32, 0#32, 0#32, 0#32⟩,
        bytes16 [0, 1, 2, 3, 4, 5, 6, 7, 8, 9, 10, 11, 12, 13, 14], 15, 15#64⟩ 0x240000000F =
      some ⟨.absorb, none, ⟨0x4DA35DC9#32, 0xE63B85D2#32, 0x45E13894#32, 0xE3E40E30#32⟩, zeroBuf 16, 0, 16#64⟩ :=
    by decide
theorem test_pushb86_after_final :
    after86 ⟨.done, none, ⟨0x1#32, 0x2#32, 0x3#32, 0x4#32⟩, zeroBuf 16, 0, 0#64⟩ 0x24000000FF =
      some ⟨.fault, some .pushPhase, ⟨0x1#32, 0x2#32, 0x3#32, 0x4#32⟩, zeroBuf 16, 0, 0#64⟩ := by decide
theorem test_pushw86_straddles :
    after86 ⟨.absorb, none, ⟨0#32, 0#32, 0#32, 0#32⟩,
        bytes16 [0, 1, 2, 3, 4, 5, 6, 7, 8, 9, 10, 11, 12, 13], 14, 14#64⟩ 0x341211100F =
      some ⟨.absorb, none, ⟨0x4DA35DC9#32, 0xE63B85D2#32, 0x45E13894#32, 0xC8A66103#32⟩, bytes16 [0x11, 0x12], 2, 18#64⟩ :=
    by decide
theorem test_final86_digest :
    after86 ⟨.absorb, none, ⟨0x4DA35DC9#32, 0xE63B85D2#32, 0x45E13894#32, 0xE3E40E30#32⟩,
        bytes16 [0x10], 1, 17#64⟩ 0x4400000000 =
      some ⟨.done, none, ⟨0x6AC99CDB#32, 0x359C940B#32, 0xAE1673AD#32, 0xA275AB51#32⟩, zeroBuf 16, 0, 17#64⟩ :=
    by decide
theorem test_final86_empty :
    after86 ⟨.absorb, none, ⟨0x1#32, 0x1#32, 0x1#32, 0x1#32⟩, zeroBuf 16, 0, 0#64⟩ 0x4400000000 =
      some ⟨.done, none, ⟨0x88C4ADEC#32, 0x54D201B9#32, 0x54D201B9#32, 0x54D201B9#32⟩, zeroBuf 16, 0, 0#64⟩ :=
    by decide

theorem test_init64_zero_extends :
    after64 ⟨.idle, none, ⟨0x0#64, 0x0#64⟩, zeroBuf 16, 0, 0#64⟩ 0x18FFFFFFFF =
      some ⟨.absorb, none, ⟨0xFFFFFFFF#64, 0xFFFFFFFF#64⟩, zeroBuf 16, 0, 0#64⟩ := by decide
theorem test_pushb64_block :
    after64 ⟨.absorb, none, ⟨0x0#64, 0x0#64⟩,
        bytes16 [0, 1, 2, 3, 4, 5, 6, 7, 8, 9, 10, 11, 12, 13, 14], 15, 15#64⟩ 0x280000000F =
      some ⟨.absorb, none, ⟨0xDCAC505EA5C458DF#64, 0x72927C4BE244042D#64⟩, zeroBuf 16, 0, 16#64⟩ := by decide
theorem test_pushw64_block :
    after64 ⟨.absorb, none, ⟨0x0#64, 0x0#64⟩,
        bytes16 [0, 1, 2, 3, 4, 5, 6, 7, 8, 9, 10, 11], 12, 12#64⟩ 0x380F0E0D0C =
      some ⟨.absorb, none, ⟨0xDCAC505EA5C458DF#64, 0x72927C4BE244042D#64⟩, zeroBuf 16, 0, 16#64⟩ := by decide
theorem test_final64_digest :
    after64 ⟨.absorb, none, ⟨0xDCAC505EA5C458DF#64, 0x72927C4BE244042D#64⟩, bytes16 [0x10], 1, 17#64⟩ 0x4800000000 =
      some ⟨.done, none, ⟨0x5C76F40F9FE7C20E#64, 0xC15F026B9EDAA824#64⟩, zeroBuf 16, 0, 17#64⟩ := by decide
theorem test_final64_reserved_payload :
    after64 ⟨.absorb, none, ⟨0x1#64, 0x1#64⟩, zeroBuf 16, 0, 0#64⟩ 0x4800000001 =
      some ⟨.fault, some .resBits, ⟨0x1#64, 0x1#64⟩, zeroBuf 16, 0, 0#64⟩ := by decide

/-- The all-engine decode fault of section 2.7: `E86` keeps its first cause. -/
theorem test_fault_on_all_engines :
    (match step ({ State.reset with
        e32 := ⟨.absorb, none, 1#32, #v[1, 0, 0, 0], 1, 1#64⟩
        e86 := { Engine86.reset with phase := .fault, cause := some .pushPhase }
        e64 := { Engine64.reset with phase := .done } }.withFetchWord 40 0x4C00000000) with
      | .next t => some (t.e32, t.e86.phase, t.e86.cause, t.e64.phase, t.e64.cause)
      | _ => none) =
    some (⟨.fault, some .resEngine, 1#32, #v[1, 0, 0, 0], 1, 1#64⟩, .fault, some .pushPhase, .fault, some .resEngine) := by
  decide

/-! ### The primitive port (95_test_vectors.md section 2.1) -/

theorem test_rotl32_upper_half_ignored : primAfter ⟨0#2, 0xAAAAAAAA12345678#64, 8#6⟩ = some 0x34567812#64 := by decide
theorem test_rotl32_amount_mod_32 : primAfter ⟨0#2, 0x12345678#64, 40#6⟩ = some 0x34567812#64 := by decide
theorem test_rotl64_above_31 : primAfter ⟨1#2, 0x123456789ABCDEF#64, 33#6⟩ = some 0x13579BDE02468ACF#64 := by decide
theorem test_rotl64_63 : primAfter ⟨1#2, 0x123456789ABCDEF#64, 63#6⟩ = some 0x8091A2B3C4D5E6F7#64 := by decide
theorem test_fmix32_ignores : primAfter ⟨2#2, 0xFFFFFFFFDEADBEEF#64, 63#6⟩ = some 0xDE5C6A9#64 := by decide
theorem test_fmix64 : primAfter ⟨3#2, 0xDEADBEEFCAFEBABE#64, 17#6⟩ = some 0x7082995008F0C48C#64 := by decide

/-- The primitive word of the opcode table runs as the first instruction after reset. -/
theorem test_primitive_fetch :
    (match step (State.reset.withFetchWord 8 2) with
      | .next t => some (t.pins, t.plan)
      | _ => none) = some (⟨2#2, 0#64, 0#6⟩, []) := by decide

/-! ### Digests (95_test_vectors.md sections 2.2 to 2.4 and 2.8) -/

theorem test_hash32_empty_zero : hash32 [] 0#32 = 0#32 := by decide
theorem test_hash32_three_bytes : hash32 [0x21, 0x43, 0x65] 0#32 = 0x7E4A8634#32 := by decide
theorem test_hash128x86_hello : hash128x86 [0x68, 0x65, 0x6C, 0x6C, 0x6F] 0#32 =
    ⟨0x2B2444A0#32, 0xDB91DEF7#32, 0x9ADB31B6#32, 0x9ADB31B6#32⟩ := by decide
theorem test_hash128x86_fifteen : hash128x86 [0, 1, 2, 3, 4, 5, 6, 7, 8, 9, 10, 11, 12, 13, 14] 0#32 =
    ⟨0x757B9C59#32, 0x62A6E4CA#32, 0x61E2DB4E#32, 0xCA775566#32⟩ := by decide
theorem test_hash128x64_fifteen : hash128x64 [0, 1, 2, 3, 4, 5, 6, 7, 8, 9, 10, 11, 12, 13, 14] 0#32 =
    ⟨0x47231598FD4925E9#64, 0xCD846DEE88C67DE9#64⟩ := by decide
theorem test_hash128x64_seed : hash128x64 [] 0xFFFFFFFF#32 =
    ⟨0x6AF1DF4D9D3BC9EC#64, 0x857421121EE6446B#64⟩ := by decide

/-! ### The codes on the ports (10_state.md R27, 60_exceptions.md R201) -/

theorem test_phase_codes : [Phase.idle, .absorb, .done, .fault].map Phase.code = [0#2, 1#2, 2#2, 3#2] := by decide
theorem test_cause_codes :
    [none, some Cause.illegalOp, some .resEngine, some .resBits, some .pushPhase, some .finalPhase,
      some .lenOverflow].map causeCode = [0#3, 1#3, 2#3, 3#3, 4#3, 5#3, 6#3] := by decide

/-! ### The handshake (70_reset_and_hazards.md R231, R232, U7) -/

/-- While `cmd_ready` is 0 a presented word waits and no engine changes. -/
theorem test_word_waits :
    (match step { State.reset with busy := 2, plan := [.edge false true 0x1000000001#40] } with
      | .next t => some (t.e32, t.busy, t.waiting)
      | _ => none) = some (Engine32.reset, 1, some 0x1000000001#40) := by decide

/-- A host that changes a word it must keep is refused. -/
theorem test_changed_word_refused :
    step { State.reset with busy := 1, waiting := some 0x1000000001#40, plan := [.edge false true 0x1000000002#40] } =
      .refused .hostBrokeHandshake := rfl

/-- A reset edge has priority over a presented word and abandons a step. -/
theorem test_reset_edge_first :
    (match step { State.reset with
        e32 := ⟨.absorb, none, 1#32, #v[1, 0, 0, 0], 1, 1#64⟩
        busy := 3
        plan := [.edge true true 0x1000000001#40] } with
      | .next t => some (t.e32, t.cmdReady)
      | _ => none) = some (Engine32.reset, true) := by decide

/-! ### Witnesses: states and operands that meet the hypotheses of the statements -/

/-- The reset state with a given `E32`. -/
def with32 (p : Phase) (c : Option Cause) (fill : Fin 4) (len : Nat) : State :=
  { State.reset with e32 := ⟨p, c, 7#32, zeroBuf 4, fill, BitVec.ofNat 64 len⟩ }

/-- The reset state with a given `E86`. -/
def with86 (p : Phase) (c : Option Cause) (fill : Fin 16) (len : Nat) : State :=
  { State.reset with e86 := ⟨p, c, ⟨7#32, 7#32, 7#32, 7#32⟩, zeroBuf 16, fill, BitVec.ofNat 64 len⟩ }

/-- The reset state with a given `E64`. -/
def with64 (p : Phase) (c : Option Cause) (fill : Fin 16) (len : Nat) : State :=
  { State.reset with e64 := ⟨p, c, ⟨7#64, 7#64⟩, zeroBuf 16, fill, BitVec.ofNat 64 len⟩ }

/-- The reset state with a plan. -/
def planned (plan : List HostAct) : State := { State.reset with plan := plan }

theorem witness_EncodingWhatWasDecodedGivesItBack :
    decodePort (.command 0x24000000FF#40) = .instr (.pushb86 0xFF#8) := by decide

/-- A word that fits a row, and one that fits none: `FINAL.64` with a payload of 1. -/
theorem witness_OpcodeMapDecidesDecoding :
    (∃ r ∈ opcodeTable, 0x20000000FF#40 &&& r.mask = r.pattern) ∧
    (∀ r ∈ opcodeTable, 0x4800000001#40 &&& r.mask ≠ r.pattern) := by decide

/-- One word for each clause, `op`, `rsv` and payload at the bound of their ranges. -/
theorem witness_ReservedEncodingsRaiseTheirCause :
    (0x5800000000 / 2 ^ 36 = 5 ∧ 0x5800000000 / 2 ^ 34 % 4 = 2) ∧
    (0x5C00000000 / 2 ^ 36 = 5 ∧ 0x5C00000000 / 2 ^ 34 % 4 = 3) ∧
    (0x1C00000000 / 2 ^ 36 = 1 ∧ 0x4C00000000 / 2 ^ 36 = 4 ∧ 0x4C00000000 / 2 ^ 34 % 4 = 3) ∧
    (0x4900000000 / 2 ^ 36 = 4 ∧ 0x4900000000 / 2 ^ 34 % 4 = 2 ∧ 0x4900000000 / 2 ^ 32 % 4 = 1) ∧
    (0x2000000100 / 2 ^ 36 = 2 ∧ 0x2000000100 / 2 ^ 32 % 4 = 0 ∧ 0x2000000100 % 2 ^ 32 = 256) ∧
    (0x4800000001 / 2 ^ 36 = 4 ∧ 0x4800000001 / 2 ^ 32 % 4 = 0 ∧ 0x4800000001 % 2 ^ 32 = 1) := by decide

theorem witness_StepRunsTheAcceptedCommand :
    (planned [.edge false true 0x1000000005#40]).plan = .edge false true 0x1000000005#40 :: [] ∧
    (planned [.edge false true 0x1000000005#40]).busy = 0 ∧
    (planned [.edge false true 0x1000000005#40]).waiting = none ∧
    decode 0x1000000005#40 = .instr (.init32 5#32) := by decide

/-- The same with the word waiting. -/
theorem witness_StepRunsTheAcceptedCommand_waiting :
    ∃ s : State, s.plan = [.edge false true 0x1000000005#40] ∧ s.busy = 0 ∧ s.waiting = some 0x1000000005#40 :=
  ⟨{ planned [.edge false true 0x1000000005#40] with waiting := some 0x1000000005#40 }, rfl, rfl, rfl⟩

theorem witness_StepRunsThePrimitiveOperation :
    (planned [.prim ⟨1#2, 1#64, 33#6⟩]).plan = .prim ⟨1#2, 1#64, 33#6⟩ :: [] := by decide

theorem witness_StepTakesTheDecodeFault :
    (planned [.edge false true 0x1C00000000#40]).plan = .edge false true 0x1C00000000#40 :: [] ∧
    (planned [.edge false true 0x1C00000000#40]).busy = 0 ∧
    (planned [.edge false true 0x1C00000000#40]).waiting = none ∧
    decode 0x1C00000000#40 = .bad .all .resEngine := by decide

theorem witness_InitOpensMessage32 :
    (with32 .done none 0 9).e32.phase ≠ .fault ∧ (with32 .fault (some .resBits) 0 9).e32.phase = .fault := by decide

/-- Room for one byte, the buffer not full and full; no room; each phase. -/
theorem witness_PushbPushesOneByte32 :
    ((with32 .absorb none 2 (2 ^ 64 - 2)).e32.phase = .absorb ∧
      (with32 .absorb none 2 (2 ^ 64 - 2)).e32.len.toNat < 2 ^ 64 - 1 ∧
      (with32 .absorb none 2 (2 ^ 64 - 2)).e32.fill.val ≠ 3) ∧
    ((with32 .absorb none 3 (2 ^ 64 - 2)).e32.len.toNat < 2 ^ 64 - 1 ∧
      (with32 .absorb none 3 (2 ^ 64 - 2)).e32.fill.val = 3) ∧
    (with32 .absorb none 3 (2 ^ 64 - 1)).e32.len.toNat = 2 ^ 64 - 1 ∧
    (with32 .idle none 0 0).e32.phase = .idle ∧ (with32 .done none 0 9).e32.phase = .done ∧
    (with32 .fault (some .resBits) 0 9).e32.phase = .fault := by decide

/-- The last length with room for four bytes, and the first without. -/
theorem witness_PushwPushesFourBytes32 :
    ((with32 .absorb none 3 (2 ^ 64 - 5)).e32.phase = .absorb ∧
      (with32 .absorb none 3 (2 ^ 64 - 5)).e32.len.toNat ≤ 2 ^ 64 - 5) ∧
    ((with32 .absorb none 0 (2 ^ 64 - 4)).e32.phase = .absorb ∧
      2 ^ 64 - 5 < (with32 .absorb none 0 (2 ^ 64 - 4)).e32.len.toNat) ∧
    (with32 .idle none 0 0).e32.phase = .idle ∧ (with32 .done none 0 9).e32.phase = .done ∧
    (with32 .fault (some .resBits) 0 9).e32.phase = .fault := by decide

theorem witness_FinalLeavesDigest32 :
    (with32 .absorb none 3 3).e32.phase = .absorb ∧ (with32 .idle none 0 0).e32.phase = .idle ∧
    (with32 .done none 0 9).e32.phase = .done ∧ (with32 .fault (some .resBits) 0 9).e32.phase = .fault := by decide

/-- A message of five bytes by a word and a byte, with a `NOP`, a primitive operation and another engine's command
between. -/
def mixed32 : List Instr :=
  [.pushw32 0x64636261#32, .nop 0#36, .fmix32 0#64 0#6, .init86 0#32, .pushb32 0x65#8]

theorem witness_CommandsComputeHash32 :
    State.reset.e32.phase ≠ .fault ∧ (∀ i ∈ mixed32, leavesOpen .e32 i) ∧
    (messageTo .e32 mixed32).length ≤ 2 ^ 64 - 1 ∧
    messageTo .e32 mixed32 = [0x61#8, 0x62#8, 0x63#8, 0x64#8, 0x65#8] := by decide

theorem witness_InitOpensMessage86 :
    (with86 .done none 0 9).e86.phase ≠ .fault ∧ (with86 .fault (some .resBits) 0 9).e86.phase = .fault := by decide

/-- Room for one byte, the buffer not full and full; no room; each phase. -/
theorem witness_PushbPushesOneByte86 :
    ((with86 .absorb none 14 (2 ^ 64 - 2)).e86.phase = .absorb ∧
      (with86 .absorb none 14 (2 ^ 64 - 2)).e86.len.toNat < 2 ^ 64 - 1 ∧
      (with86 .absorb none 14 (2 ^ 64 - 2)).e86.fill.val ≠ 15) ∧
    ((with86 .absorb none 15 (2 ^ 64 - 2)).e86.len.toNat < 2 ^ 64 - 1 ∧
      (with86 .absorb none 15 (2 ^ 64 - 2)).e86.fill.val = 15) ∧
    (with86 .absorb none 15 (2 ^ 64 - 1)).e86.len.toNat = 2 ^ 64 - 1 ∧
    (with86 .idle none 0 0).e86.phase = .idle ∧ (with86 .done none 0 9).e86.phase = .done ∧
    (with86 .fault (some .resBits) 0 9).e86.phase = .fault := by decide

/-- The last length with room for four bytes, and the first without. -/
theorem witness_PushwPushesFourBytes86 :
    ((with86 .absorb none 15 (2 ^ 64 - 5)).e86.phase = .absorb ∧
      (with86 .absorb none 15 (2 ^ 64 - 5)).e86.len.toNat ≤ 2 ^ 64 - 5) ∧
    ((with86 .absorb none 0 (2 ^ 64 - 4)).e86.phase = .absorb ∧
      2 ^ 64 - 5 < (with86 .absorb none 0 (2 ^ 64 - 4)).e86.len.toNat) ∧
    (with86 .idle none 0 0).e86.phase = .idle ∧ (with86 .done none 0 9).e86.phase = .done ∧
    (with86 .fault (some .resBits) 0 9).e86.phase = .fault := by decide

theorem witness_FinalLeavesDigest86 :
    (with86 .absorb none 15 15).e86.phase = .absorb ∧ (with86 .idle none 0 0).e86.phase = .idle ∧
    (with86 .done none 0 9).e86.phase = .done ∧ (with86 .fault (some .resBits) 0 9).e86.phase = .fault := by decide

/-- A message of five bytes by a word and a byte, with a `NOP`, a primitive operation and another engine's command
between. -/
def mixed86 : List Instr :=
  [.pushw86 0x64636261#32, .nop 0#36, .fmix32 0#64 0#6, .init64 0#32, .pushb86 0x65#8]

theorem witness_CommandsComputeHash86 :
    State.reset.e86.phase ≠ .fault ∧ (∀ i ∈ mixed86, leavesOpen .e86 i) ∧
    (messageTo .e86 mixed86).length ≤ 2 ^ 64 - 1 ∧
    messageTo .e86 mixed86 = [0x61#8, 0x62#8, 0x63#8, 0x64#8, 0x65#8] := by decide

theorem witness_InitOpensMessage64 :
    (with64 .done none 0 9).e64.phase ≠ .fault ∧ (with64 .fault (some .resBits) 0 9).e64.phase = .fault := by decide

/-- Room for one byte, the buffer not full and full; no room; each phase. -/
theorem witness_PushbPushesOneByte64 :
    ((with64 .absorb none 14 (2 ^ 64 - 2)).e64.phase = .absorb ∧
      (with64 .absorb none 14 (2 ^ 64 - 2)).e64.len.toNat < 2 ^ 64 - 1 ∧
      (with64 .absorb none 14 (2 ^ 64 - 2)).e64.fill.val ≠ 15) ∧
    ((with64 .absorb none 15 (2 ^ 64 - 2)).e64.len.toNat < 2 ^ 64 - 1 ∧
      (with64 .absorb none 15 (2 ^ 64 - 2)).e64.fill.val = 15) ∧
    (with64 .absorb none 15 (2 ^ 64 - 1)).e64.len.toNat = 2 ^ 64 - 1 ∧
    (with64 .idle none 0 0).e64.phase = .idle ∧ (with64 .done none 0 9).e64.phase = .done ∧
    (with64 .fault (some .resBits) 0 9).e64.phase = .fault := by decide

/-- The last length with room for four bytes, and the first without. -/
theorem witness_PushwPushesFourBytes64 :
    ((with64 .absorb none 15 (2 ^ 64 - 5)).e64.phase = .absorb ∧
      (with64 .absorb none 15 (2 ^ 64 - 5)).e64.len.toNat ≤ 2 ^ 64 - 5) ∧
    ((with64 .absorb none 0 (2 ^ 64 - 4)).e64.phase = .absorb ∧
      2 ^ 64 - 5 < (with64 .absorb none 0 (2 ^ 64 - 4)).e64.len.toNat) ∧
    (with64 .idle none 0 0).e64.phase = .idle ∧ (with64 .done none 0 9).e64.phase = .done ∧
    (with64 .fault (some .resBits) 0 9).e64.phase = .fault := by decide

theorem witness_FinalLeavesDigest64 :
    (with64 .absorb none 15 15).e64.phase = .absorb ∧ (with64 .idle none 0 0).e64.phase = .idle ∧
    (with64 .done none 0 9).e64.phase = .done ∧ (with64 .fault (some .resBits) 0 9).e64.phase = .fault := by decide

/-- A message of five bytes by a word and a byte, with a `NOP`, a primitive operation and another engine's command
between. -/
def mixed64 : List Instr :=
  [.pushw64 0x64636261#32, .nop 0#36, .fmix32 0#64 0#6, .init86 0#32, .pushb64 0x65#8]

theorem witness_CommandsComputeHash64 :
    State.reset.e64.phase ≠ .fault ∧ (∀ i ∈ mixed64, leavesOpen .e64 i) ∧
    (messageTo .e64 mixed64).length ≤ 2 ^ 64 - 1 ∧
    messageTo .e64 mixed64 = [0x61#8, 0x62#8, 0x63#8, 0x64#8, 0x65#8] := by decide

theorem witness_NopChangesNothing : (0x0FFFFFFFFF#40).toNat < 2 ^ 36 := by decide

/-- Two states with the same pins; a reset edge and an edge of a busy block; a change of the pins. -/
theorem witness_PrimitiveOutputDependsOnPinsOnly :
    (with32 .absorb none 0 0).pins = State.reset.pins ∧
    (∃ t, (planned [.edge true true 0#40]).nextAct = .edge true true 0#40 ∧
      step (planned [.edge true true 0#40]) = .next t) ∧
    (∃ s t, State.busy s = 2 ∧ s.nextAct = .edge false true 0#40 ∧ step s = .next t) ∧
    (∃ t, (planned [.prim ⟨3#2, 1#64, 0#6⟩]).nextAct = .prim ⟨3#2, 1#64, 0#6⟩ ∧
      step (planned [.prim ⟨3#2, 1#64, 0#6⟩]) = .next t) :=
  ⟨rfl, ⟨_, rfl, rfl⟩, ⟨{ planned [.edge false true 0#40] with busy := 2 }, _, rfl, rfl, rfl⟩, ⟨_, rfl, rfl⟩⟩

theorem witness_ResetEdgeGivesTheResetState :
    ∃ s : State, s.busy = 3 ∧ s.plan = .edge true true 0x1000000001#40 :: [.edge false false 0#40] :=
  ⟨{ planned [.edge true true 0x1000000001#40, .edge false false 0#40] with busy := 3 }, rfl, rfl⟩

/-- No word presented; a word presented to a busy block. -/
theorem witness_NothingChangesWithoutAcceptance :
    (∃ s t, State.nextAct s = .edge false false 0#40 ∧ step s = .next t) ∧
    (∃ s t, State.nextAct s = .edge false true 0x1000000001#40 ∧ s.busy ≠ 0 ∧ step s = .next t) :=
  ⟨⟨planned [.edge false false 0#40], _, rfl, rfl⟩,
    ⟨{ planned [.edge false true 0x1000000001#40] with busy := 1 }, _, rfl, by decide, rfl⟩⟩

/-- Both sides of the two equivalences about the handshake are met somewhere. -/
theorem witness_handshake_equivalences :
    (∃ s s', State.cmdReady s = true ∧ s.waiting = none ∧ fetch s = .run (.command 0x1000000001#40) s') ∧
    (∃ s, State.waiting s = some 1#40 ∧ step s = .refused .hostBrokeHandshake) :=
  ⟨⟨planned [.edge false true 0x1000000001#40], _, rfl, rfl, rfl⟩,
    ⟨{ planned [.edge false false 0#40] with busy := 1, waiting := some 1#40 }, rfl, rfl⟩⟩

theorem witness_CmdReadyReturns : ∃ s : State, s.plan = [] ∧ s.waiting = none ∧ s.busy = 3 :=
  ⟨{ State.reset with busy := 3 }, rfl, rfl, rfl⟩

theorem witness_QuiescentPortsShowTheState :
    (with86 .done none 0 9).cmdReady = true ∧ rstLevel (with86 .done none 0 9).plan = false := by decide

/-- Two words, the block busy at the start and after the first. -/
theorem witness_HandshakeRunsTheWordSequence :
    ∃ s u : State, s.waiting = none ∧ s.busy = 1 ∧ s.stalls = [2, 0] ∧
      s.plan = hostPlan [0x1000000005#40, 0x2000000061#40] s.busy s.stalls ∧
      runWords [0x1000000005#40, 0x2000000061#40] s = .next u :=
  ⟨{ planned (hostPlan [0x1000000005#40, 0x2000000061#40] 1 [2, 0]) with busy := 1, stalls := [2, 0] }, _,
    rfl, rfl, rfl, rfl, rfl⟩

/-- A state with a message open on `E32` that holds two bytes, and its next step. -/
def running : State :=
  { planned [.edge false true 0x2000000063#40] with
    e32 := (Engine32.reset.openMessage (init32 9#32)).pushBytes block32 [0x61#8, 0x62#8] }

theorem witness_StepKeepsTheStateSound : running.Sound ∧ ∃ t, step running = .next t :=
  ⟨⟨((Engine.Sound.resetTo _).openMessage (by decide) _).pushBytes _ _ rfl (by decide),
    .resetTo _, .resetTo _⟩, _, rfl⟩

/-- A message open on `E32` and a finished one on `E86`: what they were told, and what `E32` has been told after the step. -/
theorem witness_StepKeepsTheStateExplained :
    ∃ (s t : State) (g : Told), s.e32.phase = .absorb ∧ s.e86.phase = .done ∧ s.Explained g ∧ step s = .next t ∧
      (g.afterStep s).e32 = ⟨9#32, [0x61#8, 0x62#8, 0x63#8]⟩ := by
  refine ⟨{ running with e86 := (Engine86.reset.openMessage (init86 5#32)).finalize digest86 }, _,
    ⟨⟨9#32, [0x61#8, 0x62#8]⟩, ⟨5#32, []⟩, ⟨0#32, []⟩⟩, rfl, rfl,
    ⟨⟨fun _ => ?_, ?_⟩, ⟨?_, fun _ => ⟨rfl, rfl⟩⟩, ⟨?_, ?_⟩⟩, rfl, rfl⟩
  · exact (Engine.holds_openMessage _).pushBytes [0x61#8, 0x62#8] (by decide)
  all_goals exact fun h => absurd h (by decide)

theorem witness_FaultedEngineIsFrozen :
    ∃ s t : State, step s = .next t ∧ s.nextAct = .edge false true 0x1000000001#40 ∧ s.e32.phase = .fault ∧
      s.e86.phase = .fault ∧ s.e64.phase = .fault :=
  ⟨(planned [.edge false true 0x1000000001#40]).raiseFault .all .resEngine, _, rfl, rfl, rfl, rfl, rfl⟩

theorem witness_PhasesMoveByTheTable :
    (∃ t, kindOf (.pushw64 0#32) = some .push ∧ exec (.pushw64 0#32) (with64 .absorb none 0 (2 ^ 64 - 4)) = .next t) ∧
    (∃ t, kindOf (.nop 0#36) = none ∧ exec (.nop 0#36) State.reset = .next t) :=
  ⟨⟨_, rfl, rfl⟩, ⟨_, rfl, rfl⟩⟩

/-- A legal word for each engine, a word with `eng = 3`, a `NOP` with `eng = 3`. -/
theorem witness_WordsKeepToTheirEngine :
    (∀ w ∈ [0x1000000001#40, 0x1400000001#40, 0x1800000001#40, 0x1C00000001#40, 0x0C00000000#40],
      ∃ t, runPort (.command w) State.reset = .next t) ∧
    (0x1000000001 / 2 ^ 34 % 4 = 0 ∧ 0x1400000001 / 2 ^ 34 % 4 = 1 ∧ 0x1800000001 / 2 ^ 34 % 4 = 2) ∧
    (0x1C00000001 / 2 ^ 34 % 4 = 3 ∧ 0x1C00000001 / 2 ^ 36 = 1) ∧
    (0x0C00000000 / 2 ^ 34 % 4 = 3 ∧ 0x0C00000000 / 2 ^ 36 = 0) :=
  ⟨fun _ _ => runPort_isNext _ _, by decide⟩

theorem witness_WordsToDifferentEnginesCommute :
    (0x1000000001#40).toNat / 2 ^ 34 % 4 < 3 ∧ (0x2800000061#40).toNat / 2 ^ 34 % 4 < 3 ∧
    (0x1000000001#40).toNat / 2 ^ 34 % 4 ≠ (0x2800000061#40).toNat / 2 ^ 34 % 4 := by decide

theorem witness_PushwEqualsFourPushbs :
    (with32 .idle none 0 0).e32.phase ≠ .absorb ∧ (with32 .absorb none 3 (2 ^ 64 - 5)).e32.len.toNat ≤ 2 ^ 64 - 5 ∧
    (with86 .absorb none 15 (2 ^ 64 - 5)).e86.len.toNat ≤ 2 ^ 64 - 5 ∧
    (with64 .absorb none 15 (2 ^ 64 - 5)).e64.len.toNat ≤ 2 ^ 64 - 5 := by decide

/-- The first length without room for four bytes, and the last. -/
theorem witness_PushwEqualsFourPushbs_no_room :
    (with32 .absorb none 3 (2 ^ 64 - 4)).e32.phase = .absorb ∧
    2 ^ 64 - 5 < (with32 .absorb none 3 (2 ^ 64 - 4)).e32.len.toNat ∧
    2 ^ 64 - 5 < (with86 .absorb none 15 (2 ^ 64 - 1)).e86.len.toNat ∧
    2 ^ 64 - 5 < (with64 .absorb none 15 (2 ^ 64 - 1)).e64.len.toNat := by decide

theorem witness_InitForgetsTheEarlierMessage :
    (∃ t t', (with32 .absorb none 3 7).e32.phase ≠ .fault ∧ (with32 .done none 0 9).e32.phase ≠ .fault ∧
      (with32 .absorb none 3 7).e32.cause = (with32 .done none 0 9).e32.cause ∧
      execAll [.init32 5#32, .pushb32 1#8] (with32 .absorb none 3 7) = .next t ∧
      execAll [.init32 5#32, .pushb32 1#8] (with32 .done none 0 9) = .next t') ∧
    (∃ t t', (with86 .absorb none 3 7).e86.phase ≠ .fault ∧ (with86 .done none 0 9).e86.phase ≠ .fault ∧
      (with86 .absorb none 3 7).e86.cause = (with86 .done none 0 9).e86.cause ∧
      execAll [.init86 5#32, .pushb86 1#8] (with86 .absorb none 3 7) = .next t ∧
      execAll [.init86 5#32, .pushb86 1#8] (with86 .done none 0 9) = .next t') ∧
    (∃ t t', (with64 .absorb none 3 7).e64.phase ≠ .fault ∧ (with64 .done none 0 9).e64.phase ≠ .fault ∧
      (with64 .absorb none 3 7).e64.cause = (with64 .done none 0 9).e64.cause ∧
      execAll [.init64 5#32, .pushb64 1#8] (with64 .absorb none 3 7) = .next t ∧
      execAll [.init64 5#32, .pushb64 1#8] (with64 .done none 0 9) = .next t') :=
  ⟨⟨_, _, by decide, by decide, rfl, rfl, rfl⟩, ⟨_, _, by decide, by decide, rfl, rfl, rfl⟩,
    ⟨_, _, by decide, by decide, rfl, rfl, rfl⟩⟩

theorem witness_DigestOfTheEmptyMessage : hash32 [] 1#32 = hash32 [] 1#32 := rfl

/-- The last bit of a 32-bit and of a 64-bit word. -/
theorem witness_RotationMovesBits : 31 < 32 ∧ 63 < 64 := by decide

/-- The last bit of the last of three bytes in a 32-bit word, and the first bit above them. -/
theorem witness_LittleEndianPlacement :
    2 < [1#8, 2#8, 0x80#8].length ∧ 7 < 8 ∧ 8 * 2 + 7 < 32 ∧ 8 * [1#8, 2#8, 0x80#8].length ≤ 24 := by decide

theorem witness_TailStepsReadAZeroPaddedBlock :
    [1#8, 2#8, 3#8].length < 4 ∧ (List.replicate 15 1#8).length < 16 := by decide

theorem witness_BlocksAreFoldedInOrder :
    (List.replicate 8 1#8).length % 4 = 0 ∧ (List.replicate 4 2#8).length = 4 ∧
    (List.replicate 32 1#8).length % 16 = 0 ∧ (List.replicate 16 2#8).length = 16 := by decide

/-- An engine that holds two bytes, a word pushed to it with room left, a command to another engine at the
length bound. -/
theorem witness_MessageGrowsByTheBytesPushed :
    running.e86.phase ≠ .fault ∧ running.e32.Holds (init32 9#32) block32 [0x61#8, 0x62#8] ∧
    leavesOpen .e32 (.pushw32 0#32) = true ∧ [0x61#8, 0x62#8].length + (pushedTo .e32 (.pushw32 0#32)).length ≤ 2 ^ 64 - 1 ∧
    leavesOpen .e32 (.final86) = true ∧ 2 ^ 64 - 1 + (pushedTo .e32 .final86).length ≤ 2 ^ 64 - 1 :=
  ⟨by decide, (Engine.holds_openMessage _).pushBytes [0x61#8, 0x62#8] (by decide), rfl, by decide, rfl, by decide⟩

end Sys2Proof.Tests
end

section
/-! PROOFS. The bits of a little-endian word (00_scope.md R16, 20_memory.md R54 and R55). -/

namespace Sys2Proof.Machine

/-- The low eight bits of a decoded number are its first byte, the others the number of the remaining bytes (R16). -/
theorem testBit_leNat_cons (b : Byte) (bs : List Byte) (k : Nat) :
    (leNat (b :: bs)).testBit k = if k < 8 then b.getLsbD k else (leNat bs).testBit (k - 8) := by
  rw [leNat_cons, Nat.add_comm]
  exact Nat.testBit_two_pow_mul_add (leNat bs) b.isLt k

theorem testBit_leNat_of_lt_length (bs : List Byte) (i j : Nat) (hi : i < bs.length) (hj : j < 8) :
    (leNat bs).testBit (8 * i + j) = bs[i].getLsbD j := by
  induction bs generalizing i with
  | nil => exact absurd hi (Nat.not_lt_zero i)
  | cons b bs ih =>
    rw [testBit_leNat_cons]
    cases i with
    | zero => simp [hj]
    | succ i =>
      have hge : ¬ 8 * (i + 1) + j < 8 := by omega
      have hsub : 8 * (i + 1) + j - 8 = 8 * i + j := by omega
      rw [if_neg hge, hsub, ih i (Nat.lt_of_succ_lt_succ hi), List.getElem_cons_succ]

/-- `leNat bs` is below `2 ^ (8 * bs.length)`, so it has no bit from there on. -/
theorem testBit_leNat_of_length_le (bs : List Byte) (k : Nat) (hk : 8 * bs.length ≤ k) :
    (leNat bs).testBit k = false := by
  apply Nat.testBit_lt_two_pow
  calc leNat bs < 256 ^ bs.length := leNat_lt bs
    _ = 2 ^ (8 * bs.length) := by rw [pow_mul]; norm_num
    _ ≤ 2 ^ k := Nat.pow_le_pow_right (by decide) hk

/-- The word is the number cut to its width. -/
theorem getLsbD_leWord (W : Nat) (bs : List Byte) (k : Nat) :
    (leWord W bs).getLsbD k = (decide (k < W) && (leNat bs).testBit k) :=
  BitVec.getLsbD_ofNat W (leNat bs) k

/-- Settles O54: the bits of `leNat`, by induction on the bytes, cut to the word's width. -/
theorem littleEndianPlacement : Obligations.LittleEndianPlacement := by
  intro W bs
  constructor
  · intro i j hi hj hW
    rw [getLsbD_leWord, testBit_leNat_of_lt_length bs i j hi hj, decide_eq_true hW, Bool.true_and]
  · intro k hk
    rw [getLsbD_leWord, testBit_leNat_of_length_le bs k hk, Bool.and_false]

end Sys2Proof.Machine
end

section
/-! PROOFS. The state and its invariants (10_state.md R26, R37, R38): what one instruction and one step do to one engine is
said once, for an engine of any lane type; the invariants, the messages and the noninterference of `INIT` follow from that. -/

namespace Sys2Proof.Machine

section OneEngine

variable {L : Type} {B : Nat} [NeZero B] {en : EngineId} {init : Word32 → L} {block : L → List Byte → L}
  {digest : L → List Byte → Word64 → L} {i : Instr} {k : Kind} {e : Engine L B}

/-! ### What an instruction does to one engine -/

/-- The engine `en` after an instruction: a command that addresses it acts on it unless it is in `FAULT` (R183), anything else
leaves it (R196). `exec_engines` ties it to `exec`. -/
def Engine.afterInstr (en : EngineId) (init : Word32 → L) (block : L → List Byte → L)
    (digest : L → List Byte → Word64 → L) (i : Instr) (e : Engine L B) : Engine L B :=
  if i.engine = some en then
    match kindOf i with
    | some k => e.unlessFault (Engine.applied init block digest k (seedOf i) (pushedTo en i))
    | none => e
  else e

theorem Engine.afterInstr_other (h : i.engine ≠ some en) : e.afterInstr en init block digest i = e := by
  simp [Engine.afterInstr, h]

theorem Engine.afterInstr_command (h : i.engine = some en) (hk : kindOf i = some k) :
    e.afterInstr en init block digest i =
      e.unlessFault (Engine.applied init block digest k (seedOf i) (pushedTo en i)) := by
  simp [Engine.afterInstr, h, hk]

/-- An engine not in `FAULT` takes the command that addresses it. -/
theorem Engine.afterInstr_running (h : i.engine = some en) (hk : kindOf i = some k) (hf : e.phase ≠ .fault) :
    e.afterInstr en init block digest i = e.applied init block digest k (seedOf i) (pushedTo en i) := by
  rw [Engine.afterInstr_command h hk, Engine.unlessFault_running hf]

/-- An instruction that addresses an engine is a command. -/
theorem exists_kindOf_of_engine (h : i.engine = some en) : ∃ k, kindOf i = some k := by
  cases i <;> simp_all [Instr.engine, kindOf]

/-- The three ways an instruction can meet an engine. -/
theorem Engine.afterInstr_cases (en : EngineId) (init : Word32 → L) (block : L → List Byte → L)
    (digest : L → List Byte → Word64 → L) (i : Instr) (e : Engine L B) :
    (i.engine ≠ some en ∧ e.afterInstr en init block digest i = e) ∨
    (e.phase = .fault ∧ e.afterInstr en init block digest i = e) ∨
    (∃ k, i.engine = some en ∧ kindOf i = some k ∧ e.phase ≠ .fault ∧
      e.afterInstr en init block digest i = e.applied init block digest k (seedOf i) (pushedTo en i)) := by
  by_cases h : i.engine = some en
  · obtain ⟨k, hk⟩ := exists_kindOf_of_engine h
    by_cases hf : e.phase = .fault
    · exact .inr (.inl ⟨hf, by rw [Engine.afterInstr_command h hk, Engine.unlessFault_frozen hf]⟩)
    · exact .inr (.inr ⟨k, h, hk, hf, Engine.afterInstr_running h hk hf⟩)
  · exact .inl ⟨h, Engine.afterInstr_other h⟩

/-- What a step can do to an engine, given the instruction it runs: that instruction's effect; without one nothing, a reset, or
a fault (R183, R202, R231). `step_engines` ties it to `step`. -/
def Engine.StepsTo (zero : L) (after : Instr → Engine L B → Engine L B) (ran : Option Instr) (e e' : Engine L B) : Prop :=
  match ran with
  | some i => e' = after i e
  | none => e' = e ∨ e' = Engine.resetTo zero ∨ ∃ c, e' = e.takeFault c

/-- A decode fault of the engines of some set, for one engine. -/
theorem Engine.StepsTo.ite_takeFault {zero : L} {after : Instr → Engine L B → Engine L B} (hit : Bool) (c : Cause) :
    Engine.StepsTo zero after none e (if hit then e.takeFault c else e) := by
  cases hit
  · exact .inl rfl
  · exact .inr (.inr ⟨c, rfl⟩)

/-! ### `Engine.Sound` -/

variable {zero : L} {e' : Engine L B}

theorem Engine.Sound.applied (h : e.Sound zero) (hf : e.phase ≠ .fault) (k : Kind) (seed : Word32) (bs : List Byte) :
    (e.applied init block digest k seed bs).Sound zero := by
  cases k with
  | init => exact h.openMessage hf (init seed)
  | push => exact h.push block bs
  | final => exact h.finalize digest

theorem Engine.Sound.afterInstr (h : e.Sound zero) (i : Instr) : (e.afterInstr en init block digest i).Sound zero := by
  rcases Engine.afterInstr_cases en init block digest i e with ⟨_, he⟩ | ⟨_, he⟩ | ⟨k, _, _, hf, he⟩ <;> rw [he]
  · exact h
  · exact h
  · exact h.applied hf k _ _

theorem Engine.Sound.stepsTo {ran : Option Instr} (h : e.Sound zero)
    (hs : Engine.StepsTo zero (Engine.afterInstr en init block digest) ran e e') : e'.Sound zero := by
  cases ran with
  | some i =>
    obtain rfl : e' = _ := hs
    exact h.afterInstr i
  | none =>
    obtain rfl | rfl | ⟨c, rfl⟩ := hs
    · exact h
    · exact Engine.Sound.resetTo zero
    · exact h.takeFault c

/-! ### `Engine.Holds` -/

variable {h0 : L} {m : List Byte}

/-- An engine in `DONE` with the digest `d` of `n` bytes (R38 item 4). -/
def Engine.Digested {L : Type} {B : Nat} (d : L) (n : Nat) (e : Engine L B) : Prop :=
  e.phase = .done ∧ e.h = d ∧ e.len.toNat = n

/-- Bytes that fit under the length bound are added to the message. -/
theorem Engine.Holds.push (h : e.Holds h0 block m) (bs : List Byte) (hl : e.len.toNat + bs.length ≤ Config.lenMax) :
    (e.push block bs).Holds h0 block (m ++ bs) := by
  have ⟨ha, hlen, _, _⟩ := h
  rcases Engine.push_cases block bs e with ⟨hna, _⟩ | ⟨_, hover, _⟩ | ⟨_, _, he⟩
  · exact absurd ha hna
  · omega
  · rw [he]
    exact h.pushBytes bs (by omega)

/-- An instruction that leaves the message open, with room for its bytes, adds them to it. -/
theorem Engine.Holds.afterInstr (h : e.Holds h0 block m) (ho : leavesOpen en i)
    (hl : m.length + (pushedTo en i).length ≤ Config.lenMax) :
    (e.afterInstr en init block digest i).Holds h0 block (m ++ pushedTo en i) := by
  by_cases hi : i.engine = some en
  · have ⟨ha, hlen, _, _⟩ := h
    have hk : kindOf i = some .push := by simpa [leavesOpen, hi] using ho
    rw [Engine.afterInstr_running hi hk (by simp [ha])]
    exact h.push _ (by omega)
  · rw [Engine.afterInstr_other hi, pushedTo_other hi, List.append_nil]
    exact h

/-- An `INIT` opens the empty message under its seed. -/
theorem Engine.holds_afterInstr_init (hi : i.engine = some en) (hk : kindOf i = some .init) (hf : e.phase ≠ .fault) :
    (e.afterInstr en init block digest i).Holds (init (seedOf i)) block [] := by
  rw [Engine.afterInstr_running hi hk hf]
  exact Engine.holds_openMessage e

section Hash

/-! ### `Engine.Explained` -/

-- `hhash`: the document's digest is the engine's tail step and finalization on the folded lanes, the tail and the length
-- (R126, R147, R167).
variable {hash : List Byte → Word32 → L} {g : Heard} (hhash : ∀ (m : List Byte) (seed : Word32),
  hash m seed = digest (foldedLanes B block (init seed) m) (tailOf B m) (BitVec.ofNat 64 m.length))

include hhash in
/-- `FINAL` leaves the digest of the message the engine holds, and its length. -/
theorem Engine.Holds.finalize {seed : Word32} (h : e.Holds (init seed) block m) :
    (e.finalize digest).Digested (hash m seed) m.length := by
  obtain ⟨ha, hlen, hlanes, htail⟩ := h
  rcases Engine.finalize_cases digest e with ⟨hna, _⟩ | ⟨_, he⟩
  · exact absurd ha hna
  · have hN : e.len = BitVec.ofNat 64 m.length := by rw [← hlen, BitVec.ofNat_toNat, BitVec.setWidth_eq]
    rw [he, hhash, ← hlanes, ← htail, ← hN]
    exact ⟨rfl, rfl, hlen⟩

include hhash in
theorem Engine.Holds.afterInstr_final {seed : Word32} (h : e.Holds (init seed) block m) (hi : i.engine = some en)
    (hk : kindOf i = some .final) :
    (e.afterInstr en init block digest i).Digested (hash m seed) m.length := by
  rw [Engine.afterInstr_running hi hk (by simp [h.1])]
  exact h.finalize hhash

omit [NeZero B] in
/-- Of an engine in `IDLE` or `FAULT` nothing is to be explained. -/
theorem Engine.Explained.of_phase (ha : e.phase ≠ .absorb) (hd : e.phase ≠ .done) :
    e.Explained init block hash g :=
  ⟨fun h => absurd h ha, fun h => absurd h hd⟩

omit [NeZero B] in
theorem Engine.Explained.takeFault (e : Engine L B) (c : Cause) : (e.takeFault c).Explained init block hash g :=
  .of_phase (by simp) (by simp)

theorem Engine.Explained.resetTo (zero : L) : (Engine.resetTo zero : Engine L B).Explained init block hash g :=
  .of_phase (by simp [Engine.resetTo]) (by simp [Engine.resetTo])

theorem Engine.Explained.openMessage (e : Engine L B) (seed : Word32) :
    (e.openMessage (init seed)).Explained init block hash ⟨seed, []⟩ :=
  ⟨fun _ => e.holds_openMessage, by simp [Engine.openMessage]⟩

theorem Engine.Explained.push (h : e.Explained init block hash g) (bs : List Byte) :
    (e.push block bs).Explained init block hash ⟨g.seed, g.bytes ++ bs⟩ := by
  rcases Engine.push_cases block bs e with ⟨_, he⟩ | ⟨_, _, he⟩ | ⟨ha, hl, _⟩
  · rw [he]; exact .takeFault e _
  · rw [he]; exact .takeFault e _
  · have hp := (h.1 ha).push bs hl
    exact ⟨fun _ => hp, fun hd => by simp [hp.1] at hd⟩

include hhash in
theorem Engine.Explained.finalize (h : e.Explained init block hash g) :
    (e.finalize digest).Explained init block hash g := by
  rcases Engine.finalize_cases digest e with ⟨_, he⟩ | ⟨ha, _⟩
  · rw [he]; exact .takeFault e _
  · obtain ⟨hd, hlanes, hlen⟩ := (h.1 ha).finalize hhash
    exact ⟨fun ha => by simp [hd] at ha, fun _ => ⟨hlen, hlanes⟩⟩

/-- A `FINAL` pushes nothing. -/
theorem pushedTo_final (hk : kindOf i = some .final) : pushedTo en i = [] := by
  cases i <;> simp_all [kindOf, pushedTo]

include hhash in
theorem Engine.Explained.afterInstr (h : e.Explained init block hash g) (i : Instr) :
    (e.afterInstr en init block digest i).Explained init block hash (g.after en i) := by
  rcases Engine.afterInstr_cases en init block digest i e with ⟨ho, he⟩ | ⟨hf, he⟩ | ⟨k, hi, hk, _, he⟩ <;> rw [he]
  · rw [Heard.after_other ho]
    exact h
  · exact .of_phase (by simp [hf]) (by simp [hf])
  · cases k with
    | init =>
      rw [Heard.after_init hi hk]
      exact .openMessage e (seedOf i)
    | push =>
      rw [Heard.after_not_init (by simp [hk])]
      exact h.push _
    | final =>
      rw [Heard.after_not_init (by simp [hk]), pushedTo_final hk, List.append_nil]
      exact h.finalize hhash

include hhash in
theorem Engine.Explained.stepsTo {s : State} (h : e.Explained init block hash g)
    (hs : Engine.StepsTo zero (Engine.afterInstr en init block digest) (stepInstr s) e e') :
    e'.Explained init block hash (g.afterStep en s) := by
  unfold Heard.afterStep
  cases hr : stepInstr s with
  | some i =>
    rw [hr] at hs
    obtain rfl : e' = _ := hs
    exact h.afterInstr hhash i
  | none =>
    rw [hr] at hs
    obtain rfl | rfl | ⟨c, rfl⟩ := hs
    · exact h
    · exact .resetTo zero
    · exact .takeFault e c

end Hash

/-! ### `INIT` forgets -/

/-- What `INIT` leaves of an engine is its cause. -/
theorem Engine.openMessage_congr (hc : e.cause = e'.cause) : e.openMessage h0 = e'.openMessage h0 := by
  simp [Engine.openMessage, hc]

/-- From two engines not in `FAULT` with the same cause an `INIT` leaves the same engine. -/
theorem Engine.afterInstr_init_congr (hi : i.engine = some en) (hk : kindOf i = some .init) (hf : e.phase ≠ .fault)
    (hf' : e'.phase ≠ .fault) (hc : e.cause = e'.cause) :
    e.afterInstr en init block digest i = e'.afterInstr en init block digest i := by
  rw [Engine.afterInstr_running hi hk hf, Engine.afterInstr_running hi hk hf']
  exact Engine.openMessage_congr hc

end OneEngine

/-! ### The three engines -/

/-- `E32` after an instruction. -/
def Engine32.after : Instr → Engine32 → Engine32 := Engine.afterInstr .e32 init32 block32 digest32

/-- `E86` after an instruction. -/
def Engine86.after : Instr → Engine86 → Engine86 := Engine.afterInstr .e86 init86 block86 digest86

/-- `E64` after an instruction. -/
def Engine64.after : Instr → Engine64 → Engine64 := Engine.afterInstr .e64 init64 block64 digest64

/-- An instruction does to each engine what `Engine.afterInstr` says. -/
theorem exec_engines {i : Instr} {s t : State} (h : exec i s = .next t) :
    t.e32 = Engine32.after i s.e32 ∧ t.e86 = Engine86.after i s.e86 ∧ t.e64 = Engine64.after i s.e64 := by
  unfold Engine32.after Engine86.after Engine64.after
  rcases exec_cases h with ⟨_, hn, rfl | ⟨p, rfl⟩⟩ | ⟨k, hk, hi, rfl⟩ | ⟨k, hk, hi, rfl⟩ | ⟨k, hk, hi, rfl⟩
  · simp [Engine.afterInstr_other, hn]
  · simp [Engine.afterInstr_other, hn]
  · simp [Engine.afterInstr_other, Engine.afterInstr_command hi hk, hi]
  · simp [Engine.afterInstr_other, Engine.afterInstr_command hi hk, hi]
  · simp [Engine.afterInstr_other, Engine.afterInstr_command hi hk, hi]

/-- What holds of `E32` as `Engine32.after` leaves it holds of it in the next state, which there is. -/
theorem exec_e32 {i : Instr} {s : State} {P : Engine32 → Prop} (h : P (Engine32.after i s.e32)) :
    ∃ t, exec i s = .next t ∧ P t.e32 := by
  obtain ⟨t, ht⟩ := exec_isNext i s
  exact ⟨t, ht, (exec_engines ht).1 ▸ h⟩

theorem exec_e86 {i : Instr} {s : State} {P : Engine86 → Prop} (h : P (Engine86.after i s.e86)) :
    ∃ t, exec i s = .next t ∧ P t.e86 := by
  obtain ⟨t, ht⟩ := exec_isNext i s
  exact ⟨t, ht, (exec_engines ht).2.1 ▸ h⟩

theorem exec_e64 {i : Instr} {s : State} {P : Engine64 → Prop} (h : P (Engine64.after i s.e64)) :
    ∃ t, exec i s = .next t ∧ P t.e64 := by
  obtain ⟨t, ht⟩ := exec_isNext i s
  exact ⟨t, ht, (exec_engines ht).2.2 ▸ h⟩

/-- A sequence of instructions acts on each engine by itself. -/
theorem execAll_engines {is : List Instr} {s t : State} (h : execAll is s = .next t) :
    t.e32 = is.foldl (fun e i => Engine32.after i e) s.e32 ∧ t.e86 = is.foldl (fun e i => Engine86.after i e) s.e86 ∧
      t.e64 = is.foldl (fun e i => Engine64.after i e) s.e64 := by
  induction is generalizing s with
  | nil =>
    cases h
    exact ⟨rfl, rfl, rfl⟩
  | cons i is ih =>
    obtain ⟨u, hu⟩ := exec_isNext i s
    simp only [execAll, hu] at h
    obtain ⟨h32, h86, h64⟩ := exec_engines hu
    rw [List.foldl_cons, List.foldl_cons, List.foldl_cons, ← h32, ← h86, ← h64]
    exact ih h

/-- A step does to each engine one of the things `Engine.StepsTo` lists. -/
theorem step_engines {s t : State} (h : step s = .next t) :
    Engine.StepsTo 0#32 Engine32.after (stepInstr s) s.e32 t.e32 ∧
    Engine.StepsTo ⟨0#32, 0#32, 0#32, 0#32⟩ Engine86.after (stepInstr s) s.e86 t.e86 ∧
    Engine.StepsTo ⟨0#64, 0#64⟩ Engine64.after (stepInstr s) s.e64 t.e64 := by
  rcases fetch_cases s with ⟨r, hf⟩ | ⟨u, hf, hu⟩ | ⟨p, u, hf, h32, h86, h64⟩ <;> simp only [step, hf] at h
  · cases h
  · cases h
    rw [stepInstr_quiet hf]
    obtain ⟨h32, h86, h64⟩ | rfl := hu
    · exact ⟨.inl h32, .inl h86, .inl h64⟩
    · exact ⟨.inr (.inl rfl), .inr (.inl rfl), .inr (.inl rfl)⟩
  · rw [← h32, ← h86, ← h64]
    rcases runPort_cases h with ⟨i, hd, hx⟩ | ⟨T, c, hd, rfl⟩
    · rw [stepInstr_run hf hd]
      exact exec_engines hx
    · rw [stepInstr_bad hf hd, State.raiseFault_e32, State.raiseFault_e86, State.raiseFault_e64]
      exact ⟨.ite_takeFault _ _, .ite_takeFault _ _, .ite_takeFault _ _⟩

/-! ### The invariants -/

/-- Settles O40: each engine is at its reset values. -/
theorem resetStateIsSound : Obligations.ResetStateIsSound :=
  ⟨Engine.Sound.resetTo _, Engine.Sound.resetTo _, Engine.Sound.resetTo _⟩

/-- Settles O41: `Engine.Sound` is kept by whatever a step does to an engine. -/
theorem stepKeepsTheStateSound : Obligations.StepKeepsTheStateSound := by
  intro s t ⟨h32, h86, h64⟩ hstep
  obtain ⟨s32, s86, s64⟩ := step_engines hstep
  exact ⟨h32.stepsTo s32, h86.stepsTo s86, h64.stepsTo s64⟩

/-- Settles O42: no engine is in `ABSORB` or `DONE`. -/
theorem resetStateIsExplained : Obligations.ResetStateIsExplained := fun _ =>
  ⟨Engine.Explained.resetTo _, Engine.Explained.resetTo _, Engine.Explained.resetTo _⟩

theorem hash32_eq (m : List Byte) (seed : Word32) :
    hash32 m seed = digest32 (foldedLanes 4 block32 (init32 seed) m) (tailOf 4 m) (BitVec.ofNat 64 m.length) := rfl

theorem hash128x86_eq (m : List Byte) (seed : Word32) :
    hash128x86 m seed = digest86 (foldedLanes 16 block86 (init86 seed) m) (tailOf 16 m) (BitVec.ofNat 64 m.length) := rfl

theorem hash128x64_eq (m : List Byte) (seed : Word32) :
    hash128x64 m seed = digest64 (foldedLanes 16 block64 (init64 seed) m) (tailOf 16 m) (BitVec.ofNat 64 m.length) := rfl

/-- Settles O43: `Engine.Explained` follows what the engine is told, whatever the step does to it. -/
theorem stepKeepsTheStateExplained : Obligations.StepKeepsTheStateExplained := by
  intro s t g ⟨h32, h86, h64⟩ hstep
  obtain ⟨s32, s86, s64⟩ := step_engines hstep
  exact ⟨h32.stepsTo hash32_eq s32, h86.stepsTo hash128x86_eq s86, h64.stepsTo hash128x64_eq s64⟩

/-! ### Messages -/

/-- Settles O49: after the `INIT` the two engines are equal, and each further instruction acts on an engine by itself. -/
theorem initForgetsTheEarlierMessage : Obligations.InitForgetsTheEarlierMessage := by
  intro seed is s s' t t'
  refine ⟨fun hf hf' hc h h' => ?_, fun hf hf' hc h h' => ?_, fun hf hf' hc h h' => ?_⟩
  · rw [(execAll_engines h).1, (execAll_engines h').1, List.foldl_cons, List.foldl_cons, Engine32.after,
      Engine.afterInstr_init_congr rfl rfl hf hf' hc]
  · rw [(execAll_engines h).2.1, (execAll_engines h').2.1, List.foldl_cons, List.foldl_cons, Engine86.after,
      Engine.afterInstr_init_congr rfl rfl hf hf' hc]
  · rw [(execAll_engines h).2.2, (execAll_engines h').2.2, List.foldl_cons, List.foldl_cons, Engine64.after,
      Engine.afterInstr_init_congr rfl rfl hf hf' hc]

/-- Settles O57: `INIT`, an instruction that leaves the message open, and `FINAL`, for each engine. -/
theorem messageGrowsByTheBytesPushed : Obligations.MessageGrowsByTheBytesPushed := by
  intro seed m s
  refine ⟨fun hf => ?_, fun i h ho hl => ?_, fun h => ?_, fun hf => ?_, fun i h ho hl => ?_, fun h => ?_,
    fun hf => ?_, fun i h ho hl => ?_, fun h => ?_⟩
  · exact exec_e32 (Engine.holds_afterInstr_init rfl rfl hf)
  · exact exec_e32 (h.afterInstr ho hl)
  · exact exec_e32 (P := Engine.Digested (hash32 m seed) m.length) (h.afterInstr_final hash32_eq rfl rfl)
  · exact exec_e86 (Engine.holds_afterInstr_init rfl rfl hf)
  · exact exec_e86 (h.afterInstr ho hl)
  · exact exec_e86 (P := Engine.Digested (hash128x86 m seed) m.length) (h.afterInstr_final hash128x86_eq rfl rfl)
  · exact exec_e64 (Engine.holds_afterInstr_init rfl rfl hf)
  · exact exec_e64 (h.afterInstr ho hl)
  · exact exec_e64 (P := Engine.Digested (hash128x64 m seed) m.length) (h.afterInstr_final hash128x64_eq rfl rfl)

/-! ### Reset and the ports -/

/-- In a cycle in which the spec says what the ports show, each shows its field. -/
theorem State.shown_eq {s : State} (h : s.portsSpecified = true) {n : Nat} (port : Nat) (v : BitVec n) :
    s.shown port v = v := by
  rw [State.shown, if_pos h]

/-- At a reset edge a step resets, whatever else the edge brings. -/
theorem step_reset {s : State} {valid : Bool} {w : CmdWord} {rest : List HostAct}
    (h : s.plan = .edge true valid w :: rest) : step s = .next s.advance.applyReset := by
  simp [step, fetch, State.nextAct, h, clockEdge]

/-- Settles O33: the step is the reset, after which the ports are specified. -/
theorem resetEdgeGivesTheResetState : Obligations.ResetEdgeGivesTheResetState := by
  intro s valid w rest h
  refine ⟨_, step_reset h, ?_, ?_⟩
  · simp [State.applyReset, State.advance, h, Engine.resetTo]
  · have hp : s.advance.applyReset.portsSpecified = true := rfl
    simp only [State.outPorts, State.shown_eq hp]
    rfl

/-- The phase codes of R27. -/
theorem Phase.code_eq_ite (p : Phase) :
    p.code = if p = .idle then 0#2 else if p = .absorb then 1#2 else if p = .done then 2#2 else 3#2 := by
  cases p <;> rfl

/-- The cause codes of R201. -/
theorem causeCode_eq_ite (c : Option Cause) :
    causeCode c = if c = some .illegalOp then 1#3 else if c = some .resEngine then 2#3 else if c = some .resBits then 3#3
      else if c = some .pushPhase then 4#3 else if c = some .finalPhase then 5#3
      else if c = some .lenOverflow then 6#3 else 0#3 := by
  cases c with
  | none => rfl
  | some c => cases c <;> rfl

/-- Settles O38: each port shows its field, and the codes are those of R27 and R201. -/
theorem quiescentPortsShowTheState : Obligations.QuiescentPortsShowTheState := by
  intro s hready hrst
  have hp : s.portsSpecified = true := by simp [State.portsSpecified, hready, hrst]
  simp only [State.outPorts, State.shown_eq hp, Phase.code_eq_ite, causeCode_eq_ite, and_self]

end Sys2Proof.Machine
end

section
/-! PROOFS. The order of accesses (20_memory.md R52, R61): a block of bytes is folded after the blocks before it, and two words
to different engines may be exchanged. -/

namespace Sys2Proof.Machine

/-! ### Blocks -/

/-- A block appended to a message of whole blocks is the one block step more. -/
theorem folded_append_block {L : Type} {B : Nat} (block : L → List Byte → L) (h : L) (m b : List Byte) (hB : 0 < B)
    (hm : m.length % B = 0) (hb : b.length = B) :
    foldedLanes B block h (m ++ b) = block (foldedLanes B block h m) b := by
  have hq : (m ++ b).length / B = m.length / B + 1 := by rw [List.length_append, hb, Nat.add_div_right _ hB]
  have hlen : B * (m.length / B) = m.length := Nat.mul_div_cancel' (Nat.dvd_of_mod_eq_zero hm)
  have hs : slice (m ++ b) (B * (m.length / B)) B = b := by
    rw [slice, hlen, List.drop_left, List.take_of_length_le hb.le]
  rw [foldedLanes, hq, absorbBlocks_succ, absorbBlocks_append _ _ _ _ _ _ hlen.le, hs, foldedLanes]

/-- `E32` decodes the whole block as one word (R54). -/
theorem block32_eq (h : Word32) {b : List Byte} (hb : b.length = 4) : block32 h b = round32 h (leWord 32 b) := by
  rw [block32, slice, List.drop_zero, List.take_of_length_le hb.le]

/-- Settles O56: `block86` and `block64` are by definition the block steps on the words of the block. -/
theorem blocksAreFoldedInOrder : Obligations.BlocksAreFoldedInOrder := by
  refine ⟨fun m b h hm hb => ?_, fun m b h hm hb => ?_, fun m b h hm hb => ?_⟩
  · rw [folded_append_block block32 h m b (by decide) hm hb, block32_eq _ hb]
  · rw [folded_append_block block86 h m b (by decide) hm hb, block86]
  · rw [folded_append_block block64 h m b (by decide) hm hb, block64]

/-! ### What a word decodes to -/

theorem engine_initOf (e : EngineId) (pl : Word32) : (initOf e pl).engine = some e := by cases e <;> rfl

theorem engine_pushbOf (e : EngineId) (b : Byte) : (pushbOf e b).engine = some e := by cases e <;> rfl

theorem engine_pushwOf (e : EngineId) (pl : Word32) : (pushwOf e pl).engine = some e := by cases e <;> rfl

theorem engine_finalOf (e : EngineId) : (finalOf e).engine = some e := by cases e <;> rfl

/-- The three things a word can be: a `NOP`, a command of the one engine its `eng` names, a decode fault of the engines its
`eng` names (R76). -/
theorem decode_cases (w : CmdWord) :
    (∃ hint, decode w = .instr (.nop hint)) ∨
    (∃ e i, targetOf w.eng = .one e ∧ decode w = .instr i ∧ i.engine = some e) ∨
    (∃ c, decode w = .bad (targetOf w.eng) c) := by
  unfold decode
  split
  · exact .inl ⟨_, rfl⟩
  split
  · exact .inr (.inr ⟨_, rfl⟩)
  cases targetOf w.eng with
  | all => exact .inr (.inr ⟨_, rfl⟩)
  | one e =>
    dsimp only
    iterate 3
      split
      · exact .inr (.inr ⟨_, rfl⟩)
    split
    · exact .inr (.inl ⟨e, _, rfl, rfl, engine_initOf e _⟩)
    split
    · exact .inr (.inl ⟨e, _, rfl, rfl, engine_pushbOf e _⟩)
    split
    · exact .inr (.inl ⟨e, _, rfl, rfl, engine_pushwOf e _⟩)
    · exact .inr (.inl ⟨e, _, rfl, rfl, engine_finalOf e⟩)

/-! ### What a word does to one engine -/

section OneEngine

variable {L : Type} {B : Nat} [NeZero B] {en : EngineId} {init : Word32 → L} {block : L → List Byte → L}
  {digest : L → List Byte → Word64 → L} {w w' : CmdWord} {e : Engine L B}

/-- The engine `en` after a word: the effect of its instruction, or its decode fault (R183). `runPort_command` ties it to
`runPort`. -/
def Engine.afterWord (en : EngineId) (init : Word32 → L) (block : L → List Byte → L)
    (digest : L → List Byte → Word64 → L) (w : CmdWord) (e : Engine L B) : Engine L B :=
  match decode w with
  | .instr i => e.afterInstr en init block digest i
  | .bad T c => if T.has en then e.takeFault (rejectCause c) else e

/-- A word leaves an engine that its `eng` does not name (R196). -/
theorem Engine.afterWord_other (h : (targetOf w.eng).has en = false) : e.afterWord en init block digest w = e := by
  unfold Engine.afterWord
  rcases decode_cases w with ⟨hint, hd⟩ | ⟨e', i, ht, hd, hi⟩ | ⟨c, hd⟩ <;> rw [hd]
  · exact Engine.afterInstr_other (by simp [Instr.engine])
  · refine Engine.afterInstr_other fun hen => ?_
    have he : e' = en := by rw [hi] at hen; exact Option.some.inj hen
    simp [ht, he, Target.has] at h
  · simp [h]

/-- Two words that do not both name the engine may be exchanged. -/
theorem Engine.afterWord_comm (h : (targetOf w.eng).has en = false ∨ (targetOf w'.eng).has en = false) :
    (e.afterWord en init block digest w).afterWord en init block digest w' =
      (e.afterWord en init block digest w').afterWord en init block digest w := by
  obtain h | h := h
  · rw [Engine.afterWord_other h, Engine.afterWord_other h]
  · rw [Engine.afterWord_other h, Engine.afterWord_other h]

end OneEngine

/-! ### What a word does to the state -/

/-- The state after a word: each engine as `Engine.afterWord` says. -/
def State.afterWord (w : CmdWord) (s : State) : State :=
  { s with
    e32 := s.e32.afterWord .e32 init32 block32 digest32 w
    e86 := s.e86.afterWord .e86 init86 block86 digest86 w
    e64 := s.e64.afterWord .e64 init64 block64 digest64 w }

/-- A command of an engine writes nothing but engines. -/
theorem exec_command_frame {i : Instr} {e : EngineId} {s t : State} (hi : i.engine = some e) (h : exec i s = .next t) :
    t = { s with e32 := t.e32, e86 := t.e86, e64 := t.e64 } := by
  rcases exec_cases h with ⟨_, hn, _⟩ | ⟨_, _, _, rfl⟩ | ⟨_, _, _, rfl⟩ | ⟨_, _, _, rfl⟩
  · simp [hi] at hn
  · rfl
  · rfl
  · rfl

/-- A word of the command port completes in every state and does what `State.afterWord` says (R183, R192). -/
theorem runPort_command (w : CmdWord) (s : State) : runPort (.command w) s = .next (s.afterWord w) := by
  unfold runPort decodePort State.afterWord Engine.afterWord
  rcases decode_cases w with ⟨hint, hd⟩ | ⟨e, i, _, hd, hi⟩ | ⟨c, hd⟩ <;> simp only [hd]
  · rfl
  · obtain ⟨t, ht⟩ := exec_isNext i s
    obtain ⟨h32, h86, h64⟩ := exec_engines ht
    rw [ht, exec_command_frame hi ht, h32, h86, h64]
    rfl
  · rfl

/-- Two words with different `eng` below 3 do not both name an engine (R72). -/
theorem targetOf_disjoint {a b : BitVec 2} (ha : a.toNat < 3) (hb : b.toNat < 3) (hab : a.toNat ≠ b.toNat)
    (en : EngineId) : (targetOf a).has en = false ∨ (targetOf b).has en = false := by
  cases en <;> revert a b <;> decide

theorem State.afterWord_comm {w w' : CmdWord} (s : State)
    (h : ∀ en, (targetOf w.eng).has en = false ∨ (targetOf w'.eng).has en = false) :
    (s.afterWord w).afterWord w' = (s.afterWord w').afterWord w := by
  simp only [State.afterWord, Engine.afterWord_comm (h _)]

/-- `eng` as a number (R70). -/
theorem toNat_eng (w : CmdWord) : w.eng.toNat = w.toNat / 2 ^ 34 % 4 := by
  rw [CmdWord.eng, BitVec.extractLsb'_toNat, Nat.shiftRight_eq_div_pow]

/-- Settles O47: each word is `State.afterWord`, and no engine is named by both. -/
theorem wordsToDifferentEnginesCommute : Obligations.WordsToDifferentEnginesCommute := by
  intro w w' s hw hw' hne
  simp only [← toNat_eng] at hw hw' hne
  have hcomm := State.afterWord_comm s (targetOf_disjoint hw hw' hne)
  refine ⟨(s.afterWord w).afterWord w', ?_, ?_⟩
  · simp only [runWords, runPort_command]
  · simp only [runWords, runPort_command, hcomm]

end Sys2Proof.Machine
end

section
/-! PROOFS. The encoding (30_encoding.md R70 to R78, R90, R94): the fields of a word, the decoder on each family of commands,
the round trips, the opcode map, the reserved encodings. -/

namespace Sys2Proof.Machine

open Laws.EncodeWellFormed (commandWord_masked pushb_masked nop_masked)

/-! ### The fields of a word (R70) -/

section Fields

variable (op : BitVec 4) (eng : BitVec 2) (pl : Word32) (w : CmdWord)

@[simp] theorem op_commandWord : (commandWord op eng pl).op = op := by
  simp only [CmdWord.op, commandWord]
  rw [BitVec.extractLsb'_append_eq_of_le (by decide), BitVec.extractLsb'_append_eq_of_le (by decide)]
  exact BitVec.extractLsb'_append_eq_left

@[simp] theorem eng_commandWord : (commandWord op eng pl).eng = eng := by
  simp only [CmdWord.eng, commandWord]
  rw [BitVec.extractLsb'_append_eq_of_le (by decide), BitVec.extractLsb'_append_eq_of_le (by decide)]
  exact BitVec.extractLsb'_append_eq_right

@[simp] theorem rsv_commandWord : (commandWord op eng pl).rsv = 0#2 := by
  simp only [CmdWord.rsv, commandWord]
  rw [BitVec.extractLsb'_append_eq_of_le (by decide)]
  exact BitVec.extractLsb'_append_eq_right

@[simp] theorem payload_commandWord : (commandWord op eng pl).payload = pl :=
  BitVec.extractLsb'_append_eq_right

/-- A word cut in two and put together again. -/
theorem append_extractLsb' {a b : Nat} (x : BitVec (a + b)) : x.extractLsb' b a ++ x.extractLsb' 0 b = x := by
  rw [BitVec.extractLsb'_append_extractLsb'_eq_extractLsb' (by omega)]
  exact BitVec.extractLsb'_eq_self

/-- A word whose reserved bits are zero is made of its fields. -/
theorem commandWord_fields {w : CmdWord} (h : w.rsv = 0#2) : commandWord w.op w.eng w.payload = w := by
  rw [commandWord, ← h]
  simp only [CmdWord.op, CmdWord.eng, CmdWord.rsv, CmdWord.payload]
  rw [BitVec.extractLsb'_append_extractLsb'_eq_extractLsb' (by decide),
    BitVec.extractLsb'_append_extractLsb'_eq_extractLsb' (by decide)]
  exact append_extractLsb' (a := 8) (b := 32) w

theorem toNat_op : w.op.toNat = w.toNat / 2 ^ 36 := by
  rw [CmdWord.op, BitVec.extractLsb'_toNat, Nat.shiftRight_eq_div_pow, Nat.mod_eq_of_lt]
  have := w.isLt
  omega

theorem toNat_rsv : w.rsv.toNat = w.toNat / 2 ^ 32 % 4 := by
  rw [CmdWord.rsv, BitVec.extractLsb'_toNat, Nat.shiftRight_eq_div_pow]

theorem toNat_payload : w.payload.toNat = w.toNat % 2 ^ 32 := by
  rw [CmdWord.payload, BitVec.extractLsb'_toNat, Nat.shiftRight_zero]

/-- The number of a word made of its fields (R94). -/
theorem commandWord_eq_ofNat :
    commandWord op eng pl = BitVec.ofNat 40 (op.toNat * 2 ^ 36 + eng.toNat * 2 ^ 34 + pl.toNat) := by
  apply BitVec.eq_of_toNat_eq
  have hop := op.isLt
  have heng := eng.isLt
  have hpl := pl.isLt
  simp only [commandWord, BitVec.toNat_append, BitVec.toNat_ofNat]
  rw [← Nat.shiftLeft_add_eq_or_of_lt hpl, ← Nat.shiftLeft_add_eq_or_of_lt (by decide),
    ← Nat.shiftLeft_add_eq_or_of_lt heng]
  simp only [Nat.shiftLeft_eq]
  omega

end Fields

/-! ### The engine a command addresses (R72) -/

/-- The field `eng` of a command to an engine (R72). `targetOf_eq_one` ties it to `targetOf`. -/
def engOf : EngineId → BitVec 2
  | .e32 => 0#2
  | .e86 => 1#2
  | .e64 => 2#2

theorem targetOf_eq_one {eng : BitVec 2} {e : EngineId} : targetOf eng = .one e ↔ eng = engOf e := by
  cases e <;> revert eng <;> decide

@[simp] theorem targetOf_engOf (e : EngineId) : targetOf (engOf e) = .one e := targetOf_eq_one.2 rfl

/-- `eng = 3` names all three engines (R76). -/
theorem targetOf_eq_all {eng : BitVec 2} (h : eng.toNat = 3) : targetOf eng = .all := by
  revert eng; decide

theorem targetOf_of_lt {eng : BitVec 2} (h : eng.toNat < 3) :
    targetOf eng = if eng.toNat = 0 then .one .e32 else if eng.toNat = 1 then .one .e86 else .one .e64 := by
  revert eng; decide

theorem targetOf_ne_all {eng : BitVec 2} (h : eng.toNat < 3) : targetOf eng ≠ .all := by
  revert eng; decide

/-! ### The encoder on each family of commands (R71) -/

@[simp] theorem encode_initOf (e : EngineId) (seed : Word32) :
    encode (initOf e seed) = .command (commandWord 1#4 (engOf e) seed) := by cases e <;> rfl

@[simp] theorem encode_pushbOf (e : EngineId) (b : Byte) :
    encode (pushbOf e b) = .command (commandWord 2#4 (engOf e) (0#24 ++ b)) := by cases e <;> rfl

@[simp] theorem encode_pushwOf (e : EngineId) (v : Word32) :
    encode (pushwOf e v) = .command (commandWord 3#4 (engOf e) v) := by cases e <;> rfl

@[simp] theorem encode_finalOf (e : EngineId) :
    encode (finalOf e) = .command (commandWord 4#4 (engOf e) 0#32) := by cases e <;> rfl

/-! ### The decoder on each family of words (R76) -/

/-- `op = 0` is a `NOP`, whatever the other bits hold (R78). -/
theorem decode_nop {w : CmdWord} (h : w.op = 0#4) : decode w = .instr (.nop (w.extractLsb' 0 36)) := by
  rw [decode, if_pos h]

theorem decode_init (e : EngineId) (seed : Word32) :
    decode (commandWord 1#4 (engOf e) seed) = .instr (initOf e seed) := by
  simp [decode]

theorem decode_pushb (e : EngineId) (b : Byte) :
    decode (commandWord 2#4 (engOf e) (0#24 ++ b)) = .instr (pushbOf e b) := by
  have hhi : BitVec.extractLsb' 8 24 (0#24 ++ b) = 0#24 := BitVec.extractLsb'_append_eq_left
  have hlo : BitVec.extractLsb' 0 8 (0#24 ++ b) = b := BitVec.extractLsb'_append_eq_right
  simp [decode, hhi, hlo]

theorem decode_pushw (e : EngineId) (v : Word32) :
    decode (commandWord 3#4 (engOf e) v) = .instr (pushwOf e v) := by
  simp [decode]

theorem decode_final (e : EngineId) : decode (commandWord 4#4 (engOf e) 0#32) = .instr (finalOf e) := by
  simp [decode]

/-! ### The round trips -/

/-- Settles O1, family by family: the fields of an encoding are the ones it was made of. -/
theorem decodingAnEncodingGivesItBack : Obligations.DecodingAnEncodingGivesItBack := by
  intro i
  cases i with
  | nop hint =>
    have hop : CmdWord.op (0#4 ++ hint) = 0#4 := BitVec.extractLsb'_append_eq_left
    have hlow : BitVec.extractLsb' 0 36 (0#4 ++ hint) = hint := BitVec.extractLsb'_append_eq_right
    exact (decode_nop hop).trans (by rw [hlow])
  | init32 seed => exact decode_init .e32 seed
  | init86 seed => exact decode_init .e86 seed
  | init64 seed => exact decode_init .e64 seed
  | pushb32 b => exact decode_pushb .e32 b
  | pushb86 b => exact decode_pushb .e86 b
  | pushb64 b => exact decode_pushb .e64 b
  | pushw32 v => exact decode_pushw .e32 v
  | pushw86 v => exact decode_pushw .e86 v
  | pushw64 v => exact decode_pushw .e64 v
  | final32 => exact decode_final .e32
  | final86 => exact decode_final .e86
  | final64 => exact decode_final .e64
  | rotl32 x r => rfl
  | rotl64 x r => rfl
  | fmix32 x r => rfl
  | fmix64 x r => rfl

/-- A command word that decodes to an instruction is its encoding: each check of R76 that the word passes fixes the bits the
instruction does not hold. -/
theorem encode_of_decode {w : CmdWord} {i : Instr} (h : decode w = .instr i) : encode i = .command w := by
  unfold decode at h
  split at h
  next hop =>
    cases h
    rw [encode, ← hop]
    exact congrArg _ (append_extractLsb' (a := 4) (b := 36) w)
  next hop0 =>
  split at h
  · cases h
  next hop5 =>
  cases ht : targetOf w.eng with
  | all => simp [ht] at h
  | one e =>
    simp only [ht] at h
    split at h
    · cases h
    next hrsv =>
    have hw := commandWord_fields (not_not.1 hrsv)
    rw [targetOf_eq_one.1 ht] at hw
    split at h
    · cases h
    next hpushb =>
    split at h
    · cases h
    next hfinal =>
    split at h
    next hop =>
      cases h
      rw [encode_initOf, ← hop, hw]
    next hop1 =>
    split at h
    next hop =>
      cases h
      have hhi : w.payload.extractLsb' 8 24 = 0#24 := not_not.1 fun hne => hpushb ⟨hop, hne⟩
      rw [encode_pushbOf, ← hop, ← hhi, append_extractLsb' (a := 24) (b := 8), hw]
    next hop2 =>
    split at h
    next hop =>
      cases h
      rw [encode_pushwOf, ← hop, hw]
    next hop3 =>
      cases h
      have hop : w.op = 4#4 := by bv_omega
      have hpl : w.payload = 0#32 := not_not.1 fun hne => hfinal ⟨hop, hne⟩
      rw [encode_finalOf, ← hop, ← hpl, hw]

theorem encode_decodePrim (p : PrimPins) : encode (decodePrim p) = .primitive p := by
  obtain ⟨op, x, r⟩ := p
  have hop : op = 0#2 ∨ op = 1#2 ∨ op = 2#2 ∨ op = 3#2 := by revert op; decide
  rcases hop with rfl | rfl | rfl | rfl <;> rfl

/-- Settles O2, port by port. -/
theorem encodingWhatWasDecodedGivesItBack : Obligations.EncodingWhatWasDecodedGivesItBack := by
  intro p i h
  cases p with
  | command w => exact encode_of_decode h
  | primitive p =>
    cases h
    exact encode_decodePrim p

/-! ### The opcode map (R75) -/

/-- A mask of the upper bits fixes those and leaves the lower ones free. -/
theorem eq_append_of_masked {a b : Nat} {x : BitVec (a + b)} {p : BitVec a}
    (h : x &&& (BitVec.allOnes a ++ 0#b) = p ++ 0#b) : x = p ++ x.extractLsb' 0 b := by
  have hx := append_extractLsb' x
  rw [← hx, BitVec.and_append, BitVec.and_allOnes, BitVec.and_zero, BitVec.append_left_inj] at h
  rw [← h, hx]

/-- The `INIT` and `PUSHW` rows fix `op`, `eng` and `rsv`. -/
theorem eq_commandWord_of_masked {w : CmdWord} {op : BitVec 4} {eng : BitVec 2}
    (h : w &&& 0xFF00000000#40 = commandWord op eng 0#32) : w = commandWord op eng w.payload :=
  eq_append_of_masked (a := 8) (b := 32) (p := op ++ eng ++ 0#2) h

/-- The `PUSHB` rows leave the low byte free. -/
theorem eq_pushb_of_masked {w : CmdWord} {eng : BitVec 2}
    (h : w &&& 0xFFFFFFFF00#40 = commandWord 2#4 eng 0#32) :
    w = commandWord 2#4 eng (0#24 ++ w.extractLsb' 0 8) := by
  have hassoc (b : Byte) : commandWord 2#4 eng (0#24 ++ b) = (2#4 ++ eng ++ 0#2 ++ 0#24 : BitVec 32) ++ b :=
    (BitVec.append_assoc (x₁ := 2#4 ++ eng ++ 0#2) (x₂ := 0#24) (x₃ := b)).symm
  rw [hassoc]
  exact eq_append_of_masked (a := 32) (b := 8) (h.trans (hassoc 0#8))

/-- The word of an instruction fits the row of its mnemonic. -/
theorem exists_row_of_encode {i : Instr} {w : CmdWord} (h : encode i = .command w) :
    ∃ r ∈ opcodeTable, r.mnemonic = i.mnemonic ∧ w &&& r.mask = r.pattern := by
  cases i <;> cases h
  case nop hint => exact ⟨opcodeTable[0], by decide, rfl, nop_masked hint⟩
  case init32 seed => exact ⟨opcodeTable[1], by decide, rfl, commandWord_masked _ _ seed⟩
  case init86 seed => exact ⟨opcodeTable[2], by decide, rfl, commandWord_masked _ _ seed⟩
  case init64 seed => exact ⟨opcodeTable[3], by decide, rfl, commandWord_masked _ _ seed⟩
  case pushb32 b => exact ⟨opcodeTable[4], by decide, rfl, pushb_masked _ b⟩
  case pushb86 b => exact ⟨opcodeTable[5], by decide, rfl, pushb_masked _ b⟩
  case pushb64 b => exact ⟨opcodeTable[6], by decide, rfl, pushb_masked _ b⟩
  case pushw32 v => exact ⟨opcodeTable[7], by decide, rfl, commandWord_masked _ _ v⟩
  case pushw86 v => exact ⟨opcodeTable[8], by decide, rfl, commandWord_masked _ _ v⟩
  case pushw64 v => exact ⟨opcodeTable[9], by decide, rfl, commandWord_masked _ _ v⟩
  case final32 => exact ⟨opcodeTable[10], by decide, rfl, rfl⟩
  case final86 => exact ⟨opcodeTable[11], by decide, rfl, rfl⟩
  case final64 => exact ⟨opcodeTable[12], by decide, rfl, rfl⟩

/-- A word that fits a row is the word of an instruction of that row's mnemonic. -/
theorem exists_encode_of_fits {w : CmdWord} {r : OpcodeRow} (hr : r ∈ opcodeTable) (h : w &&& r.mask = r.pattern) :
    ∃ i, encode i = .command w ∧ i.mnemonic = r.mnemonic := by
  have hfinal (p : CmdWord) (hp : w &&& 0xFFFFFFFFFF#40 = p) : PortWord.command p = .command w := by
    rw [← hp, show 0xFFFFFFFFFF#40 = BitVec.allOnes 40 from rfl, BitVec.and_allOnes]
  simp only [opcodeTable, List.cons_append, List.nil_append, List.mem_cons, List.not_mem_nil, or_false] at hr
  rcases hr with rfl | rfl | rfl | rfl | rfl | rfl | rfl | rfl | rfl | rfl | rfl | rfl | rfl
  · exact ⟨.nop _, congrArg _ (eq_append_of_masked (a := 4) (b := 36) h).symm, rfl⟩
  · exact ⟨.init32 _, congrArg _ (eq_commandWord_of_masked h).symm, rfl⟩
  · exact ⟨.init86 _, congrArg _ (eq_commandWord_of_masked h).symm, rfl⟩
  · exact ⟨.init64 _, congrArg _ (eq_commandWord_of_masked h).symm, rfl⟩
  · exact ⟨.pushb32 _, congrArg _ (eq_pushb_of_masked h).symm, rfl⟩
  · exact ⟨.pushb86 _, congrArg _ (eq_pushb_of_masked h).symm, rfl⟩
  · exact ⟨.pushb64 _, congrArg _ (eq_pushb_of_masked h).symm, rfl⟩
  · exact ⟨.pushw32 _, congrArg _ (eq_commandWord_of_masked h).symm, rfl⟩
  · exact ⟨.pushw86 _, congrArg _ (eq_commandWord_of_masked h).symm, rfl⟩
  · exact ⟨.pushw64 _, congrArg _ (eq_commandWord_of_masked h).symm, rfl⟩
  · exact ⟨.final32, hfinal _ h, rfl⟩
  · exact ⟨.final86, hfinal _ h, rfl⟩
  · exact ⟨.final64, hfinal _ h, rfl⟩

/-- No two rows of the map have the same mnemonic. -/
theorem row_eq_of_mnemonic :
    ∀ r ∈ opcodeTable, ∀ r' ∈ opcodeTable, r.mnemonic = r'.mnemonic → r = r' := by decide

/-- A word that fits a row decodes to the command of that mnemonic, by the round trip. -/
theorem exists_decode_of_fits {w : CmdWord} {r : OpcodeRow} (hr : r ∈ opcodeTable) (h : w &&& r.mask = r.pattern) :
    ∃ i, decode w = .instr i ∧ i.mnemonic = r.mnemonic := by
  obtain ⟨i, hi, hm⟩ := exists_encode_of_fits hr h
  have hd := decodingAnEncodingGivesItBack i
  rw [hi] at hd
  exact ⟨i, hd, hm⟩

/-- Settles O3: through the two round trips a word that fits a row is the encoding of an instruction of its mnemonic, and
mnemonics tell the rows apart. -/
theorem opcodeMapDecidesDecoding : Obligations.OpcodeMapDecidesDecoding := by
  refine ⟨fun w r hr => ⟨exists_decode_of_fits hr, ?_⟩, fun w r hr r' hr' h h' => ?_, fun w hw => ?_⟩
  · rintro ⟨i, hi, hm⟩
    obtain ⟨r', hr', hm', hfit⟩ := exists_row_of_encode (encode_of_decode hi)
    rwa [row_eq_of_mnemonic r hr r' hr' (hm.symm.trans hm'.symm)]
  · obtain ⟨i, hi, hm⟩ := exists_decode_of_fits hr h
    obtain ⟨i', hi', hm'⟩ := exists_decode_of_fits hr' h'
    have hii : i = i' := Decoded.instr.inj (hi.symm.trans hi')
    exact row_eq_of_mnemonic r hr r' hr' (by rw [← hm, ← hm', hii])
  · cases hd : decode w with
    | instr i =>
      obtain ⟨r, hr, _, hfit⟩ := exists_row_of_encode (encode_of_decode hd)
      exact absurd hfit (hw r hr)
    | bad T c => exact ⟨T, c, rfl⟩

/-! ### Reserved encodings (R77) -/

theorem decode_illegalOp {w : CmdWord} (h : 5 ≤ w.op.toNat) : decode w = .bad (targetOf w.eng) .illegalOp := by
  have h0 : w.op ≠ 0#4 := by bv_omega
  have h4 : 4#4 < w.op := by bv_omega
  rw [decode, if_neg h0, if_pos h4]

theorem decode_resEngine {w : CmdWord} (h1 : 1 ≤ w.op.toNat) (h4 : w.op.toNat ≤ 4) (he : w.eng.toNat = 3) :
    decode w = .bad (targetOf w.eng) .resEngine := by
  have hop0 : w.op ≠ 0#4 := by bv_omega
  have hop4 : ¬ 4#4 < w.op := by bv_omega
  rw [decode, if_neg hop0, if_neg hop4, targetOf_eq_all he]

/-- The three ways a word for one engine can have a reserved bit set. -/
theorem decode_resBits {w : CmdWord} (h1 : 1 ≤ w.op.toNat) (h4 : w.op.toNat ≤ 4) (he : w.eng.toNat < 3)
    (h : w.rsv ≠ 0#2 ∨ (w.op = 2#4 ∧ w.payload.extractLsb' 8 24 ≠ 0#24) ∨ (w.op = 4#4 ∧ w.payload ≠ 0#32)) :
    decode w = .bad (targetOf w.eng) .resBits := by
  have hop0 : w.op ≠ 0#4 := by bv_omega
  have hop4 : ¬ 4#4 < w.op := by bv_omega
  rw [decode, if_neg hop0, if_neg hop4]
  cases ht : targetOf w.eng with
  | all => exact absurd ht (targetOf_ne_all he)
  | one e =>
    dsimp only
    split
    · rfl
    split
    · rfl
    split
    · rfl
    next hr hb hf => exact absurd h (by simp only [hr, hb, hf, or_self, not_false_iff])

theorem runPort_of_decode_bad {w : CmdWord} {T T' : Target} {c : Reject} (h : decode w = .bad T c) (hT : T = T')
    (s : State) : runPort (.command w) s = .next (s.raiseFault T' (rejectCause c)) := by
  rw [runPort, decodePort, h, hT]

/-- Settles O4: the decoder's checks in the order of R76, on the fields as numbers. -/
theorem reservedEncodingsRaiseTheirCause : Obligations.ReservedEncodingsRaiseTheirCause := by
  intro w s
  simp only [← toNat_op, ← toNat_eng, ← toNat_rsv, ← toNat_payload]
  refine ⟨fun hop he => ?_, fun hop he => ?_, fun h1 h4 he => ?_, fun h1 h4 he hr => ?_, fun hop he _ hp => ?_,
    fun hop he _ hp => ?_⟩
  · exact runPort_of_decode_bad (decode_illegalOp hop) (targetOf_of_lt he) s
  · exact runPort_of_decode_bad (decode_illegalOp hop) (targetOf_eq_all he) s
  · exact runPort_of_decode_bad (decode_resEngine h1 h4 he) (targetOf_eq_all he) s
  · have hrsv : w.rsv ≠ 0#2 := by bv_omega
    exact runPort_of_decode_bad (decode_resBits h1 h4 he (.inl hrsv)) (targetOf_of_lt he) s
  · have hop2 : w.op = 2#4 := by bv_omega
    have hhi : w.payload.extractLsb' 8 24 ≠ 0#24 := by
      intro h
      have hn := congrArg BitVec.toNat h
      rw [BitVec.extractLsb'_toNat, Nat.shiftRight_eq_div_pow, BitVec.toNat_ofNat] at hn
      have := w.payload.isLt
      omega
    exact runPort_of_decode_bad (decode_resBits (by omega) (by omega) he (.inr (.inl ⟨hop2, hhi⟩))) (targetOf_of_lt he) s
  · have hop4 : w.op = 4#4 := by bv_omega
    have hpl : w.payload ≠ 0#32 := by bv_omega
    exact runPort_of_decode_bad (decode_resBits (by omega) (by omega) he (.inr (.inr ⟨hop4, hpl⟩))) (targetOf_of_lt he) s

/-! ### The assembler's words (R94) -/

/-- The number of a `PUSHB` word (R94). -/
theorem pushbWord_eq_ofNat (eng : BitVec 2) (b : Byte) :
    commandWord 2#4 eng (0#24 ++ b) = BitVec.ofNat 40 (2 * 2 ^ 36 + eng.toNat * 2 ^ 34 + b.toNat) := by
  have hb : (0#24 ++ b).toNat = b.toNat := by
    rw [BitVec.toNat_append, BitVec.toNat_zero, Nat.zero_shiftLeft, Nat.zero_or]
  rw [commandWord_eq_ofNat, hb]
  rfl

/-- Settles O5 by the number of a word made of its fields. -/
theorem encoderFollowsAssemblerFormula : Obligations.EncoderFollowsAssemblerFormula := by
  refine ⟨rfl, fun s => ⟨?_, ?_, ?_⟩, fun b => ⟨?_, ?_, ?_⟩, fun v => ⟨?_, ?_, ?_⟩, rfl, rfl, rfl⟩
  · exact congrArg _ (commandWord_eq_ofNat 1#4 0#2 s)
  · exact congrArg _ (commandWord_eq_ofNat 1#4 1#2 s)
  · exact congrArg _ (commandWord_eq_ofNat 1#4 2#2 s)
  · exact congrArg _ (pushbWord_eq_ofNat 0#2 b)
  · exact congrArg _ (pushbWord_eq_ofNat 1#2 b)
  · exact congrArg _ (pushbWord_eq_ofNat 2#2 b)
  · exact congrArg _ (commandWord_eq_ofNat 3#4 0#2 v)
  · exact congrArg _ (commandWord_eq_ofNat 3#4 1#2 v)
  · exact congrArg _ (commandWord_eq_ofNat 3#4 2#2 v)

/-- Settles O6: six closed words, decoded. -/
theorem wordsOfTheOpcodeMapDecode : Obligations.WordsOfTheOpcodeMapDecode := by
  unfold Obligations.WordsOfTheOpcodeMapDecode
  decide

/-! ### Steps -/

/-- Settles O8: nothing of the handshake stands between a change of the pins and its operation. -/
theorem stepRunsThePrimitiveOperation : Obligations.StepRunsThePrimitiveOperation := by
  intro s p rest h
  have hact : s.nextAct = .prim p := by rw [State.nextAct, h]
  have hadv : s.advance = { s with plan := rest, tick := s.tick + 1 } := by rw [State.advance, h, List.tail_cons]
  have hfetch : fetch s = .run (.primitive p) s.advance := by rw [fetch, hact]
  rw [step, hfetch, hadv]
  rfl

/-- Settles O10: said already by the laws of `exec` and `runPort`. -/
theorem everyWordHasANextState : Obligations.EveryWordHasANextState := ⟨exec_isNext, runPort_isNext⟩

/-- Settles O26: below `2^36` the field `op` is 0, and the decoder looks no further. -/
theorem nopChangesNothing : Obligations.NopChangesNothing := by
  refine ⟨fun w s hw => ?_, fun hint s => rfl⟩
  have hop : w.op = 0#4 := by
    apply BitVec.eq_of_toNat_eq
    rw [toNat_op, Nat.div_eq_of_lt hw]
    rfl
  have hd := decode_nop hop
  refine ⟨hd, ?_⟩
  rw [runPort, decodePort, hd]
  rfl

end Sys2Proof.Machine
end

section
/-! PROOFS. The primitive library and the primitive port (40_primitives.md R100 to R106, R110 to R114): the rotations are those
of `BitVec`, whose laws follow at every width from the bit form; the finalization mixes are made of bijections; the port. -/

namespace Sys2Proof.Machine

/-! ### Rotations (R100, R101, R105) -/

section Rotation

variable {w : Nat} (x y : BitVec w) (r : Fin w)

/-- The body of R100 and R101, at every width. Its case for amount 0 agrees with the other one, where the shift by the whole
width gives 0. -/
theorem ite_eq_rotateLeft [NeZero w] : (if r = 0 then x else (x <<< r.val) ||| (x >>> (w - r.val))) = x.rotateLeft r := by
  rw [BitVec.rotateLeft_eq_rotateLeftAux_of_lt r.isLt, BitVec.rotateLeftAux]
  split
  next hr =>
    subst hr
    simp [BitVec.ushiftRight_eq_zero]
  next => rfl

/-- The bit form of R100 and R101, at every width: the bits that do not leave the word, then those that come round. -/
theorem getLsbD_rotateLeft_add {i : Nat} (hi : i < w) :
    (x.rotateLeft r).getLsbD ((i + r) % w) = x.getLsbD i := by
  rw [BitVec.getLsbD_rotateLeft_of_le r.isLt]
  by_cases h : i + r < w
  · have hge : ¬ i + r.val < r := by omega
    simp [Nat.mod_eq_of_lt h, hge, h]
  · have hmod : (i + r.val) % w = i + r - w := by
      rw [Nat.mod_eq_sub_mod (by omega), Nat.mod_eq_of_lt (by omega)]
    have hlt : i + r.val - w < r := by omega
    have hback : w - r.val + (i + r - w) = i := by omega
    simp [hmod, hlt, hback]

variable {x y r}

/-- The bit form determines the rotated word: every position is one that some bit goes to. -/
theorem eq_rotateLeft (h : ∀ i < w, y.getLsbD ((i + r) % w) = x.getLsbD i) : y = x.rotateLeft r := by
  apply BitVec.eq_of_getLsbD_eq
  intro j hj
  have hfrom : (j + (w - r)) % w < w := Nat.mod_lt _ (by omega)
  have hto : ((j + (w - r)) % w + r) % w = j := by
    rw [Nat.mod_add_mod, Nat.add_assoc, Nat.sub_add_cancel r.isLt.le, Nat.add_mod_right, Nat.mod_eq_of_lt hj]
  have hbit := (h _ hfrom).trans (getLsbD_rotateLeft_add x r hfrom).symm
  rwa [hto] at hbit

variable (x y r)

theorem rotateLeft_rotateLeft (a b : Fin w) : (x.rotateLeft a).rotateLeft b = x.rotateLeft (a + b : Fin w) := by
  apply eq_rotateLeft
  intro i hi
  have hsplit : (i + (a + b : Fin w).val) % w = ((i + a) % w + b) % w := by
    rw [Fin.val_add, Nat.add_mod_mod, Nat.mod_add_mod, Nat.add_assoc]
  rw [hsplit, getLsbD_rotateLeft_add _ _ (Nat.mod_lt _ (by omega)), getLsbD_rotateLeft_add _ _ hi]

theorem rotateLeft_xor : (x ^^^ y).rotateLeft r = x.rotateLeft r ^^^ y.rotateLeft r := by
  symm
  apply eq_rotateLeft
  intro i hi
  simp only [BitVec.getLsbD_xor, getLsbD_rotateLeft_add _ _ hi]

/-- Rotating the positions is moving each one round. -/
theorem rotate_range (n k : Nat) : (List.range n).rotate k = (List.range n).map fun i => (i + k) % n := by
  apply List.ext_getElem
  · simp
  · intro i _ _
    simp [List.getElem_rotate]

/-- The bits are permuted as the positions are, and counting does not see the order. -/
theorem countP_rotateLeft :
    ((List.range w).countP fun i => (x.rotateLeft r).getLsbD i) = (List.range w).countP fun i => x.getLsbD i :=
  calc ((List.range w).countP fun i => (x.rotateLeft r).getLsbD i)
    _ = ((List.range w).rotate r).countP fun i => (x.rotateLeft r).getLsbD i :=
      ((List.rotate_perm _ _).countP_eq _).symm
    _ = (List.range w).countP fun i => (x.rotateLeft r).getLsbD ((i + r) % w) := by
      rw [rotate_range, List.countP_map]
      rfl
    _ = (List.range w).countP fun i => x.getLsbD i := by
      apply List.countP_congr
      intro i hi
      rw [getLsbD_rotateLeft_add x r (List.mem_range.1 hi)]

variable [NeZero w]

theorem rotateLeft_zero : x.rotateLeft (0 : Fin w) = x :=
  (eq_rotateLeft fun i hi => by rw [Fin.val_zero, Nat.add_zero, Nat.mod_eq_of_lt hi]).symm

theorem rotateLeft_neg_rotateLeft : (x.rotateLeft r).rotateLeft (0 - r : Fin w) = x := by
  rw [rotateLeft_rotateLeft, add_sub_cancel, rotateLeft_zero]

theorem rotateLeft_rotateLeft_neg : (x.rotateLeft (0 - r : Fin w)).rotateLeft r = x := by
  rw [rotateLeft_rotateLeft, sub_add_cancel, rotateLeft_zero]

theorem rotateLeft_bijective : Function.Bijective fun z : BitVec w => z.rotateLeft r :=
  Function.bijective_iff_has_inverse.2
    ⟨fun z => z.rotateLeft (0 - r : Fin w), fun z => rotateLeft_neg_rotateLeft z r, fun z => rotateLeft_rotateLeft_neg z r⟩

/-- R105, at every width. -/
theorem rotateLeft_laws (a b : Fin w) :
    (x.rotateLeft a).rotateLeft b = x.rotateLeft (a + b : Fin w) ∧ x.rotateLeft (0 : Fin w) = x ∧
    Function.Bijective (fun z : BitVec w => z.rotateLeft a) ∧
    (x.rotateLeft a).rotateLeft (0 - a : Fin w) = x ∧ (x.rotateLeft (0 - a : Fin w)).rotateLeft a = x ∧
    ((List.range w).countP fun i => (x.rotateLeft a).getLsbD i) = ((List.range w).countP fun i => x.getLsbD i) ∧
    (x ^^^ y).rotateLeft a = x.rotateLeft a ^^^ y.rotateLeft a :=
  ⟨rotateLeft_rotateLeft x a b, rotateLeft_zero x, rotateLeft_bijective a, rotateLeft_neg_rotateLeft x a,
    rotateLeft_rotateLeft_neg x a, countP_rotateLeft x a, rotateLeft_xor x y a⟩

end Rotation

theorem rotl32_eq_rotateLeft (x : Word32) (r : Fin 32) : rotl32 x r = x.rotateLeft r := ite_eq_rotateLeft x r

theorem rotl64_eq_rotateLeft (x : Word64) (r : Fin 64) : rotl64 x r = x.rotateLeft r := ite_eq_rotateLeft x r

/-- Settles O50: both rotations are `BitVec.rotateLeft`, whose bit form holds at every width. -/
theorem rotationMovesBits : Obligations.RotationMovesBits := by
  unfold Obligations.RotationMovesBits
  simp only [rotl32_eq_rotateLeft, rotl64_eq_rotateLeft]
  exact ⟨fun x r _ hi => getLsbD_rotateLeft_add x r hi, fun x r _ hi => getLsbD_rotateLeft_add x r hi⟩

/-- Settles O51: both rotations are `BitVec.rotateLeft`, whose laws hold at every width. -/
theorem rotationLaws : Obligations.RotationLaws := by
  unfold Obligations.RotationLaws
  simp only [rotl32_eq_rotateLeft, rotl64_eq_rotateLeft]
  exact ⟨fun x y => rotateLeft_laws x y, fun x y => rotateLeft_laws x y⟩

/-! ### The finalization mixes (R102, R103, R106) -/

section Mix

variable {w : Nat}

/-- The step `h ^ (h >> k)` of R102 and R103. -/
def xorShift (k : Nat) (h : BitVec w) : BitVec w := h ^^^ (h >>> k)

/-- The shape R102 and R103 share: three xor-shifts with two multiplications between them. -/
def mix (i j k : Nat) (c d : BitVec w) : BitVec w → BitVec w :=
  xorShift k ∘ (· * d) ∘ xorShift j ∘ (· * c) ∘ xorShift i

theorem xorShift_xor (k : Nat) (x y : BitVec w) : xorShift k (x ^^^ y) = xorShift k x ^^^ xorShift k y := by
  simp only [xorShift, BitVec.ushiftRight_xor_distrib]
  ac_rfl

/-- A word with image 0 is its own right shift, and a shift makes every number but 0 smaller. -/
theorem eq_zero_of_xorShift_eq_zero {k : Nat} (hk : 0 < k) {x : BitVec w} (h : xorShift k x = 0#w) : x = 0#w := by
  have hshift : x.toNat = x.toNat / 2 ^ k := by
    rw [← Nat.shiftRight_eq_div_pow, ← BitVec.toNat_ushiftRight, ← BitVec.xor_eq_zero_iff.1 h]
  apply BitVec.eq_of_toNat_eq
  by_contra hne
  have hlt := Nat.div_lt_self (Nat.pos_of_ne_zero hne) (Nat.one_lt_two_pow hk.ne')
  omega

/-- Two words with the same image differ by a word with image 0. -/
theorem xorShift_injective {k : Nat} (hk : 0 < k) : Function.Injective (xorShift k : BitVec w → BitVec w) := by
  intro x y h
  apply BitVec.xor_eq_zero_iff.1
  apply eq_zero_of_xorShift_eq_zero hk
  rw [xorShift_xor, h, BitVec.xor_self]

theorem xorShift_bijective {k : Nat} (hk : 0 < k) : Function.Bijective (xorShift k : BitVec w → BitVec w) :=
  Finite.injective_iff_bijective.1 (xorShift_injective hk)

theorem mix_bijective {i j k : Nat} {c d : BitVec w} (hi : 0 < i) (hj : 0 < j) (hk : 0 < k) (hc : IsUnit c)
    (hd : IsUnit d) : Function.Bijective (mix i j k c d) :=
  (xorShift_bijective hk).comp <| (IsUnit.isUnit_iff_mulRight_bijective.1 hd).comp <| (xorShift_bijective hj).comp <|
    (IsUnit.isUnit_iff_mulRight_bijective.1 hc).comp <| xorShift_bijective hi

end Mix

theorem fmix32_eq_mix : fmix32 = mix 16 13 16 0x85EBCA6B#32 0xC2B2AE35#32 := rfl

theorem fmix64_eq_mix : fmix64 = mix 33 33 33 0xFF51AFD7ED558CCD#64 0xC4CEB9FE1A85EC53#64 := rfl

/-- The multipliers of R102 are odd: each has an inverse modulo `2^32`. -/
theorem fmix32_bijective : Function.Bijective fmix32 := by
  rw [fmix32_eq_mix]
  exact mix_bijective (by decide) (by decide) (by decide) (IsUnit.of_mul_eq_one 0xA5CB9243#32 (by decide))
    (IsUnit.of_mul_eq_one 0x7ED1B41D#32 (by decide))

/-- The multipliers of R103 are odd: each has an inverse modulo `2^64`. -/
theorem fmix64_bijective : Function.Bijective fmix64 := by
  rw [fmix64_eq_mix]
  exact mix_bijective (by decide) (by decide) (by decide) (IsUnit.of_mul_eq_one 0x4F74430C22A54005#64 (by decide))
    (IsUnit.of_mul_eq_one 0x9CB4B2F8129337DB#64 (by decide))

/-- Settles O52: both mixes are bijections and take 0 to 0. -/
theorem finalizationMixIsABijection : Obligations.FinalizationMixIsABijection :=
  ⟨fmix32_bijective, fmix64_bijective, fun _ => fmix32_bijective.injective.eq_iff' (by decide),
    fun _ => fmix64_bijective.injective.eq_iff' (by decide)⟩

/-! ### The primitive port (R90, R110 to R114) -/

/-- An instruction of the primitive port writes the pins it is encoded in, and nothing else. -/
theorem exec_of_encode_primitive {i : Instr} {p : PrimPins} (h : encode i = .primitive p) (s : State) :
    exec i s = .next (s.drivePins p) := by
  cases i <;> cases h <;> rfl

/-- A setting of the pins completes in every state (R90, R192). -/
theorem runPort_primitive (p : PrimPins) (s : State) : runPort (.primitive p) s = .next (s.drivePins p) :=
  exec_of_encode_primitive (encode_decodePrim p) s

/-- A clock edge leaves the pins alone, whatever it does (R114). -/
theorem step_edge_pins {s t : State} {rst valid : Bool} {w : CmdWord} (hact : s.nextAct = .edge rst valid w)
    (h : step s = .next t) : t.pins = s.pins := by
  rcases step_cases h with ⟨_, _, _, rfl⟩ | ⟨_, _, _, rfl⟩ | ⟨_, _, _, _, rfl⟩ | ⟨w, _, _, _, hrun⟩ | ⟨p, hprim, _⟩
  · rfl
  · rfl
  · rfl
  · rw [runPort_command] at hrun
    cases hrun
    rfl
  · rw [hact] at hprim
    cases hprim

/-- A change of the pins writes the pins, and the host's action is used up. -/
theorem step_prim {s : State} {p : PrimPins} (hact : s.nextAct = .prim p) :
    step s = .next (s.advance.drivePins p) := by
  rw [step, fetch, hact]
  exact runPort_primitive p s.advance

theorem State.primY_congr {s s' : State} (h : s.pins = s'.pins) : s.primY = s'.primY := congrArg primOut h

/-- Settles O32: `prim_y` reads the pins, an edge keeps them, and a change of them writes nothing else. -/
theorem primitiveOutputDependsOnPinsOnly : Obligations.PrimitiveOutputDependsOnPinsOnly := by
  refine ⟨fun s s' h => ⟨State.primY_congr h, State.primY_congr h⟩, fun s t rst valid w hact h => ?_,
    fun s t p hact h => ?_⟩
  · have hpins := step_edge_pins hact h
    exact ⟨hpins, State.primY_congr hpins⟩
  · rw [step_prim hact] at h
    cases h
    exact ⟨rfl, rfl, rfl, rfl, rfl⟩

theorem primX32_eq_setWidth (x : Word64) : primX32 x = x.setWidth 32 :=
  (BitVec.setWidth_eq_extractLsb' (by decide)).symm

/-- `prim_r[5]` is ignored (R110). -/
theorem primR32_eq (r : BitVec 6) : primR32 r = ⟨r.toNat % 32, Nat.mod_lt _ (by decide)⟩ := by
  apply Fin.ext
  simp [primR32]

/-- Settles O28: bit 5 of `prim_r` is dropped by taking the amount modulo 32. -/
theorem rotl32OnThePrimitivePort : Obligations.Rotl32OnThePrimitivePort := by
  intro x r s
  refine ⟨_, exec_of_encode_primitive rfl s, rfl, ?_⟩
  rw [← primX32_eq_setWidth, ← primR32_eq]
  rfl

/-- Settles O29: the six bits of `prim_r` are an amount of a 64-bit word as they are. -/
theorem rotl64OnThePrimitivePort : Obligations.Rotl64OnThePrimitivePort := fun _ _ s =>
  ⟨_, exec_of_encode_primitive rfl s, rfl, rfl⟩

/-- Settles O30: `prim_y` on these pins reads the low half of `prim_x` only. -/
theorem fmix32OnThePrimitivePort : Obligations.Fmix32OnThePrimitivePort := by
  intro x r s
  refine ⟨_, exec_of_encode_primitive rfl s, rfl, ?_⟩
  rw [← primX32_eq_setWidth]
  rfl

/-- Settles O31: `prim_y` on these pins reads `prim_x` only. -/
theorem fmix64OnThePrimitivePort : Obligations.Fmix64OnThePrimitivePort := fun _ _ s =>
  ⟨_, exec_of_encode_primitive rfl s, rfl, rfl⟩

end Sys2Proof.Machine
end

section
/-! PROOFS. From an `INIT` to a `FINAL` (41_engine32.md R134), for an engine of any lane type: a sequence of instructions that
leaves the message open adds to it exactly the bytes it pushes, and the `FINAL` leaves their digest. -/

namespace Sys2Proof.Machine

section OneEngine

variable {L : Type} {B : Nat} [NeZero B] {en : EngineId} {init : Word32 → L} {block : L → List Byte → L}
  {digest : L → List Byte → Word64 → L} {e : Engine L B} {is : List Instr} {m : List Byte}

@[simp] theorem messageTo_nil (en : EngineId) : messageTo en [] = [] := rfl

@[simp] theorem messageTo_cons (en : EngineId) (i : Instr) (is : List Instr) :
    messageTo en (i :: is) = pushedTo en i ++ messageTo en is := rfl

/-- Instructions that leave the message open, with room for all their bytes, add them to it. -/
theorem Engine.Holds.foldl_afterInstr {h0 : L} (h : e.Holds h0 block m) (ho : ∀ i ∈ is, leavesOpen en i)
    (hl : m.length + (messageTo en is).length ≤ Config.lenMax) :
    (is.foldl (fun e i => e.afterInstr en init block digest i) e).Holds h0 block (m ++ messageTo en is) := by
  induction is generalizing e m with
  | nil => simpa using h
  | cons i is ih =>
    rw [messageTo_cons, List.length_append, ← Nat.add_assoc] at hl
    obtain ⟨hi, his⟩ := List.forall_mem_cons.1 ho
    have hstep := h.afterInstr (init := init) (digest := digest) hi (by omega)
    have hrest := ih hstep his (by rwa [List.length_append])
    rwa [List.append_assoc] at hrest

/-- An `INIT`, instructions that leave the message open, and a `FINAL`: the digest of the bytes pushed, and their number. -/
theorem Engine.digested_foldl_afterInstr {hash : List Byte → Word32 → L}
    (hhash : ∀ (m : List Byte) (seed : Word32),
      hash m seed = digest (foldedLanes B block (init seed) m) (tailOf B m) (BitVec.ofNat 64 m.length))
    {i f : Instr} (hi : i.engine = some en) (hik : kindOf i = some .init) (hf : f.engine = some en)
    (hfk : kindOf f = some .final) (hrun : e.phase ≠ .fault) (ho : ∀ j ∈ is, leavesOpen en j)
    (hl : (messageTo en is).length ≤ Config.lenMax) :
    ((i :: is ++ [f]).foldl (fun e i => e.afterInstr en init block digest i) e).Digested
      (hash (messageTo en is) (seedOf i)) (messageTo en is).length := by
  have hopen := Engine.holds_afterInstr_init (init := init) (block := block) (digest := digest) hi hik hrun
  have hheld := hopen.foldl_afterInstr (init := init) (digest := digest) ho (by rwa [List.length_nil, Nat.zero_add])
  rw [List.nil_append] at hheld
  rw [List.cons_append, List.foldl_cons, List.foldl_append]
  exact hheld.afterInstr_final hhash hf hfk

end OneEngine

/-- A sequence of instructions completes in every state (R192). -/
theorem execAll_isNext (is : List Instr) (s : State) : ∃ t, execAll is s = .next t := by
  induction is generalizing s with
  | nil => exact ⟨s, rfl⟩
  | cons i is ih =>
    obtain ⟨u, hu⟩ := exec_isNext i s
    simp only [execAll, hu]
    exact ih u

/-- What holds of `E32` as the sequence's effects on it leave it holds of it in the next state, which there is. -/
theorem execAll_e32 {is : List Instr} {s : State} {P : Engine32 → Prop}
    (h : P (is.foldl (fun e i => Engine32.after i e) s.e32)) : ∃ t, execAll is s = .next t ∧ P t.e32 := by
  obtain ⟨t, ht⟩ := execAll_isNext is s
  exact ⟨t, ht, (execAll_engines ht).1 ▸ h⟩

/-- Settles O15: `E32` follows the sequence by itself, from the empty message of `INIT.32` to the digest of `FINAL.32`. -/
theorem commandsComputeHash32 : Obligations.CommandsComputeHash32 := by
  intro seed is s hrun ho hl
  have hfit : (messageTo .e32 is).length ≤ Config.lenMax := hl
  have hdig := Engine.digested_foldl_afterInstr (i := .init32 seed) (f := .final32) hash32_eq rfl rfl rfl rfl hrun ho hfit
  exact execAll_e32 (P := Engine.Digested (hash32 (messageTo .e32 is) seed) (messageTo .e32 is).length) hdig

end Sys2Proof.Machine
end

section
/-! PROOFS. The hash computations as pure functions (41_engine32.md R124, R126 and their counterparts R144, R147, R164, R167):
the empty message, and the tail padded with zero bytes. -/

namespace Sys2Proof.Machine

/-! ### The empty message (R126, R147, R167) -/

/-- Without a byte there is no block and no tail: the seed is mixed. -/
theorem hash32_nil (seed : Word32) : hash32 [] seed = fmix32 seed :=
  congrArg fmix32 BitVec.xor_zero

theorem hash128x86_nil (seed : Word32) : hash128x86 [] seed = final86 (init86 seed) 0#64 := rfl

/-- The last three lanes are equal. -/
def Lanes86.LastEqual (h : Lanes86) : Prop := h.h2 = h.h3 ∧ h.h3 = h.h4

/-- The cross-addition adds the same sum to each of the last three lanes. -/
theorem Lanes86.LastEqual.sum86 {h : Lanes86} (hl : h.LastEqual) : (sum86 h).LastEqual := by
  obtain ⟨h23, h34⟩ := hl
  exact ⟨congrArg (· + _) h23, congrArg (· + _) h34⟩

/-- The finalization treats the last three lanes alike (R145). -/
theorem Lanes86.LastEqual.final86 {h : Lanes86} (hl : h.LastEqual) (N : Word64) : (final86 h N).LastEqual := by
  obtain ⟨h23, h34⟩ := hl
  have hlen : (Machine.sum86 ⟨h.h1 ^^^ N.setWidth 32, h.h2 ^^^ N.setWidth 32, h.h3 ^^^ N.setWidth 32,
      h.h4 ^^^ N.setWidth 32⟩).LastEqual := .sum86 ⟨congrArg (· ^^^ _) h23, congrArg (· ^^^ _) h34⟩
  exact .sum86 ⟨congrArg fmix32 hlen.1, congrArg fmix32 hlen.2⟩

/-- Settles O53: `fmix32` is injective, and no step tells the last three lanes of `E86` apart. -/
theorem digestOfTheEmptyMessage : Obligations.DigestOfTheEmptyMessage := by
  refine ⟨hash32_nil, fun s s' h => ?_, fun s => ?_, by decide, by decide, by decide⟩
  · rw [hash32_nil, hash32_nil] at h
    exact fmix32_bijective.injective h
  · rw [hash128x86_nil]
    exact Lanes86.LastEqual.final86 ⟨rfl, rfl⟩ 0#64

/-! ### The padded tail (R124, R144, R164) -/

/-- A slice of the padded sequence is that slice, padded. -/
theorem slice_append_zeros (t : List Byte) (n lo k : Nat) :
    ∃ z, slice (t ++ List.replicate n 0#8) lo k = slice t lo k ++ List.replicate z 0#8 := by
  unfold slice
  rw [List.drop_append, List.take_append, List.drop_replicate, List.take_replicate]
  exact ⟨_, rfl⟩

/-- Padding with zero bytes does not change the word of a slice (20_memory.md R55). -/
theorem leWord_slice_append_zeros (W : Nat) (t : List Byte) (n lo k : Nat) :
    leWord W (slice (t ++ List.replicate n 0#8) lo k) = leWord W (slice t lo k) := by
  obtain ⟨z, hz⟩ := slice_append_zeros t n lo k
  rw [hz, leWord_append_zeros]

/-- A lane no byte of the tail reaches may take the scramble of its padded word too, since that word is 0. -/
theorem ite_xor_slice_eq {W : Nat} {scramble : BitVec W → BitVec W} (hs : scramble 0#W = 0#W) (h : BitVec W)
    (t : List Byte) (n lo k : Nat) :
    (if lo < t.length then h ^^^ scramble (leWord W (slice t lo k)) else h) =
      h ^^^ scramble (leWord W (slice (t ++ List.replicate n 0#8) lo k)) := by
  rw [leWord_slice_append_zeros]
  split
  next => rfl
  next hlo =>
    have hnil : slice t lo k = [] := by rw [slice, List.drop_eq_nil_of_le (by omega), List.take_nil]
    have hword : leWord W (slice t lo k) = 0#W := by rw [hnil]; rfl
    rw [hword, hs, BitVec.xor_zero]

/-- A slice that reaches the end of the sequence. -/
theorem drop_eq_slice {t : List Byte} {lo k : Nat} (h : t.length ≤ lo + k) : t.drop lo = slice t lo k := by
  rw [slice, List.take_of_length_le (by rw [List.length_drop]; omega)]

theorem tail32_eq_ite {t : List Byte} (ht : t.length < 4) (h : Word32) :
    tail32 h t = if 0 < t.length then h ^^^ kmix32 (leWord 32 (slice t 0 4)) else h := by
  rw [← drop_eq_slice (by omega), List.drop_zero, tail32]
  simp only [Nat.pos_iff_ne_zero, ite_not]

/-- Settles O55: every lane is a case of `ite_xor_slice_eq`, since each scramble takes 0 to 0. -/
theorem tailStepsReadAZeroPaddedBlock : Obligations.TailStepsReadAZeroPaddedBlock := by
  refine ⟨fun h t ht => ?_, fun h t ht => ?_, fun h t ht => ?_⟩
  · have hslice : slice (t ++ List.replicate (4 - t.length) 0#8) 0 4 = t ++ List.replicate (4 - t.length) 0#8 :=
      (drop_eq_slice (by simp; omega)).symm
    rw [tail32_eq_ite ht, ite_xor_slice_eq (by decide) h t (4 - t.length), hslice]
  · simp only [tail86, drop_eq_slice (k := 4) (show t.length ≤ 12 + 4 by omega)]
    rw [ite_xor_slice_eq (scramble := kmix86a) (by decide) h.h1 t (16 - t.length),
      ite_xor_slice_eq (scramble := kmix86b) (by decide) h.h2 t (16 - t.length),
      ite_xor_slice_eq (scramble := kmix86c) (by decide) h.h3 t (16 - t.length),
      ite_xor_slice_eq (scramble := kmix86d) (by decide) h.h4 t (16 - t.length)]
  · simp only [tail64, drop_eq_slice (k := 8) (show t.length ≤ 8 + 8 by omega)]
    rw [ite_xor_slice_eq (scramble := kmix64a) (by decide) h.h1 t (16 - t.length),
      ite_xor_slice_eq (scramble := kmix64b) (by decide) h.h2 t (16 - t.length)]

end Sys2Proof.Machine
end

section
/-! PROOFS. The commands of `E32`, one by one (41_engine32.md R130 to R133): the words they are encoded in, what each shared
operation does to an engine in each phase, and the four commands. -/

namespace Sys2Proof.Machine

/-! ### The words of a command (30_encoding.md R75, R94) -/

theorem decode_initWord (e : EngineId) (seed : Word32) :
    decode (BitVec.ofNat 40 (1 * 2 ^ 36 + (engOf e).toNat * 2 ^ 34 + seed.toNat)) = .instr (initOf e seed) := by
  rw [← decode_init, commandWord_eq_ofNat]
  rfl

theorem decode_pushbWord (e : EngineId) (b : Byte) :
    decode (BitVec.ofNat 40 (2 * 2 ^ 36 + (engOf e).toNat * 2 ^ 34 + b.toNat)) = .instr (pushbOf e b) := by
  rw [← decode_pushb, pushbWord_eq_ofNat]

theorem decode_pushwWord (e : EngineId) (v : Word32) :
    decode (BitVec.ofNat 40 (3 * 2 ^ 36 + (engOf e).toNat * 2 ^ 34 + v.toNat)) = .instr (pushwOf e v) := by
  rw [← decode_pushw, commandWord_eq_ofNat]
  rfl

/-! ### Each operation in each phase -/

section OneEngine

variable {L : Type} {B : Nat} [NeZero B] {block : L → List Byte → L} {digest : L → List Byte → Word64 → L}
  {e : Engine L B} {bs : List Byte}

/-- The two phases in which an engine is neither open nor in `FAULT`. -/
theorem Phase.ne_of_idle_or_done {p : Phase} (h : p = .idle ∨ p = .done) : p ≠ .absorb ∧ p ≠ .fault := by
  rcases h with rfl | rfl <;> decide

theorem Engine.push_outside (h : e.phase = .idle ∨ e.phase = .done) :
    e.push block bs = { e with phase := .fault, cause := some .pushPhase } := by
  obtain ⟨hna, hnf⟩ := Phase.ne_of_idle_or_done h
  rw [Engine.push, if_pos hna, Engine.takeFault_running hnf]

theorem Engine.push_over (ha : e.phase = .absorb) (hl : Config.lenMax < e.len.toNat + bs.length) :
    e.push block bs = { e with phase := .fault, cause := some .lenOverflow } := by
  rw [Engine.push, if_neg (not_not.2 ha), if_pos hl, Engine.takeFault_running (by simp [ha])]

theorem Engine.push_fits (ha : e.phase = .absorb) (hl : e.len.toNat + bs.length ≤ Config.lenMax) :
    e.push block bs = e.pushBytes block bs := by
  rw [Engine.push, if_neg (not_not.2 ha), if_neg (not_lt.2 hl)]

theorem Engine.finalize_outside (h : e.phase = .idle ∨ e.phase = .done) :
    e.finalize digest = { e with phase := .fault, cause := some .finalPhase } := by
  obtain ⟨hna, hnf⟩ := Phase.ne_of_idle_or_done h
  rw [Engine.finalize, if_pos hna, Engine.takeFault_running hnf]

theorem Engine.finalize_absorb (ha : e.phase = .absorb) :
    e.finalize digest = { e with phase := .done, h := digest e.h e.tail e.len, buf := zeroBuf B, fill := 0 } := by
  rw [Engine.finalize, if_neg (not_not.2 ha)]

/-- A byte inside the block: the next fill as a sum in `Fin B`. -/
theorem Engine.pushByte_inside_add_one (b : Byte) (h : e.fill.val + 1 < B) :
    e.pushByte block b = { e with buf := e.buf.set e.fill.val b, fill := e.fill + 1, len := e.len + 1#64 } := by
  have hfill : (⟨e.fill.val + 1, h⟩ : Fin B) = e.fill + 1 := Fin.ext (Fin.val_add_one_of_lt' h).symm
  rw [Engine.pushByte_inside block b h, hfill]

/-- The last byte of the block, at its position `n`. -/
theorem Engine.pushByte_last_at {n : Nat} (b : Byte) (hfill : e.fill.val = n) (hn : n < B) (hlast : n + 1 = B) :
    e.pushByte block b =
      { e with h := block e.h (e.buf.set n b).toList, buf := zeroBuf B, fill := 0, len := e.len + 1#64 } := by
  subst hfill
  exact Engine.pushByte_last block b hlast

omit [NeZero B] in
/-- A buffer as the list of its bytes. -/
theorem toList_eq_ofFn (v : Vector Byte B) : v.toList = List.ofFn fun i : Fin B => v[i.val] := by
  rw [← Vector.toList_ofFn, Vector.ofFn_getElem]

end OneEngine

theorem lenMax_eq : Config.lenMax = 2 ^ 64 - 1 := rfl

theorem length_payloadBytes (v : Word32) : (payloadBytes v).length = 4 := rfl

/-! ### The commands of `E32` -/

/-- `E32` decodes a full buffer as the word of its four bytes (R54). -/
theorem block32_toList (h : Word32) (v : Vector Byte 4) :
    block32 h v.toList = round32 h (leWord 32 [v[0], v[1], v[2], v[3]]) := by
  rw [toList_eq_ofFn]
  rfl

section OneCommand

variable {i : Instr} {s : State} {f : Engine32 → Engine32} (hx : exec i s = .next (s.onE32 f))

include hx

/-- A command to `E32` in `FAULT` changes nothing (R184). -/
theorem exec_onE32_frozen (h : s.e32.phase = .fault) : exec i s = .next s := by
  rw [hx, State.onE32, Engine.unlessFault_frozen h]

/-- A command to `E32` not in `FAULT` changes nothing outside it (R196). -/
theorem exec_onE32_running {e : Engine32} (h : s.e32.phase ≠ .fault) (he : f s.e32 = e) :
    exec i s = .next { s with e32 := e } := by
  rw [hx, State.onE32, Engine.unlessFault_running h, he]

/-- The same in `ABSORB`. -/
theorem exec_onE32_absorb {e : Engine32} (h : s.e32.phase = .absorb) (he : f s.e32 = e) :
    exec i s = .next { s with e32 := e } :=
  exec_onE32_running hx (by simp [h]) he

/-- The same in `IDLE` and `DONE`. -/
theorem exec_onE32_outside {e : Engine32} (h : s.e32.phase = .idle ∨ s.e32.phase = .done) (he : f s.e32 = e) :
    exec i s = .next { s with e32 := e } :=
  exec_onE32_running hx (Phase.ne_of_idle_or_done h).2 he

end OneCommand

/-- Settles O11: `Engine.openMessage` in every phase but `FAULT`. -/
theorem initOpensMessage32 : Obligations.InitOpensMessage32 := fun seed _ =>
  ⟨decode_initWord .e32 seed, fun hrun => exec_onE32_running rfl hrun rfl, exec_onE32_frozen rfl⟩

/-- Settles O12: the phase, then the length, then whether the byte is the last of its block. -/
theorem pushbPushesOneByte32 : Obligations.PushbPushesOneByte32 := by
  intro b s
  refine ⟨decode_pushbWord .e32 b, fun ha hl hfill => ?_, fun ha hl hfill => ?_, fun ha hl => ?_, fun h => ?_,
    exec_onE32_frozen rfl⟩
  · have hroom : s.e32.len.toNat + [b].length ≤ Config.lenMax := by rw [lenMax_eq, List.length_singleton]; omega
    have hin : s.e32.fill.val + 1 < 4 := by omega
    exact exec_onE32_absorb rfl ha ((Engine.push_fits ha hroom).trans (Engine.pushByte_inside_add_one b hin))
  · have hroom : s.e32.len.toNat + [b].length ≤ Config.lenMax := by rw [lenMax_eq, List.length_singleton]; omega
    dsimp only
    rw [← block32_toList]
    exact exec_onE32_absorb rfl ha
      ((Engine.push_fits ha hroom).trans (Engine.pushByte_last_at b hfill (by decide) rfl))
  · have hover : Config.lenMax < s.e32.len.toNat + [b].length := by rw [lenMax_eq, List.length_singleton]; omega
    exact exec_onE32_absorb rfl ha (Engine.push_over ha hover)
  · exact exec_onE32_outside rfl h (Engine.push_outside h)

/-- Settles O13: the phase, then the length once for the four bytes, then one byte after another. -/
theorem pushwPushesFourBytes32 : Obligations.PushwPushesFourBytes32 := by
  intro v s
  refine ⟨decode_pushwWord .e32 v, fun ha hl => ?_, fun ha hl => ?_, fun h => ?_, exec_onE32_frozen rfl⟩
  · have hroom : s.e32.len.toNat + (payloadBytes v).length ≤ Config.lenMax := by
      rw [lenMax_eq, length_payloadBytes]; omega
    exact exec_onE32_absorb rfl ha (Engine.push_fits ha hroom)
  · have hover : Config.lenMax < s.e32.len.toNat + (payloadBytes v).length := by
      rw [lenMax_eq, length_payloadBytes]; omega
    exact exec_onE32_absorb rfl ha (Engine.push_over ha hover)
  · exact exec_onE32_outside rfl h (Engine.push_outside h)

/-- Settles O14: the tail step reads the first `fill` bytes of the buffer. -/
theorem finalLeavesDigest32 : Obligations.FinalLeavesDigest32 :=
  ⟨decode_final .e32, fun _ => ⟨fun ha => exec_onE32_absorb rfl ha (Engine.finalize_absorb ha),
    fun h => exec_onE32_outside rfl h (Engine.finalize_outside h), exec_onE32_frozen rfl⟩⟩

end Sys2Proof.Machine
end

section
/-! PROOFS. The commands of `E86` (42_engine128_x86.md R150 to R154). What a dispatched command leaves of the one engine it
addresses is said for an engine of any lane type and block size; the four commands of `E86`, one by one, and the run from an
`INIT` to a `FINAL` follow. -/

namespace Sys2Proof.Machine

/-! ### What a dispatched command leaves of its engine -/

section OneEngine

variable {L : Type} {B : Nat} [NeZero B] {block : L → List Byte → L} {e : Engine L B}

omit [NeZero B] in
/-- In `ABSORB` the dispatch runs the command (R183). -/
theorem Engine.unlessFault_absorb (ha : e.phase = .absorb) (f : Engine L B → Engine L B) : e.unlessFault f = f e :=
  Engine.unlessFault_running (by simp [ha]) f

omit [NeZero B] in
/-- So it does in `IDLE` and `DONE`. -/
theorem Engine.unlessFault_outside (h : e.phase = .idle ∨ e.phase = .done) (f : Engine L B → Engine L B) :
    e.unlessFault f = f e :=
  Engine.unlessFault_running (Phase.ne_of_idle_or_done h).2 f

/-- A push outside a message takes `PUSH_PHASE` (R207). -/
theorem Engine.unlessFault_push_outside (h : e.phase = .idle ∨ e.phase = .done) (bs : List Byte) :
    e.unlessFault (Engine.push block bs) = { e with phase := .fault, cause := some .pushPhase } := by
  rw [Engine.unlessFault_outside h, Engine.push_outside h]

/-- Bytes that do not fit under the length bound take `LEN_OVERFLOW` (R208). -/
theorem Engine.unlessFault_push_over (ha : e.phase = .absorb) {bs : List Byte}
    (hl : Config.lenMax < e.len.toNat + bs.length) :
    e.unlessFault (Engine.push block bs) = { e with phase := .fault, cause := some .lenOverflow } := by
  rw [Engine.unlessFault_absorb ha, Engine.push_over ha hl]

/-- Bytes that fit are pushed. -/
theorem Engine.unlessFault_push_fits (ha : e.phase = .absorb) {bs : List Byte}
    (hl : e.len.toNat + bs.length ≤ Config.lenMax) :
    e.unlessFault (Engine.push block bs) = e.pushBytes block bs := by
  rw [Engine.unlessFault_absorb ha, Engine.push_fits ha hl]

theorem Engine.unlessFault_finalize_outside (h : e.phase = .idle ∨ e.phase = .done)
    (digest : L → List Byte → Word64 → L) :
    e.unlessFault (Engine.finalize digest) = { e with phase := .fault, cause := some .finalPhase } := by
  rw [Engine.unlessFault_outside h, Engine.finalize_outside h]

theorem Engine.unlessFault_finalize_absorb (ha : e.phase = .absorb) (digest : L → List Byte → Word64 → L) :
    e.unlessFault (Engine.finalize digest) =
      { e with phase := .done, h := digest e.h e.tail e.len, buf := zeroBuf B, fill := 0 } := by
  rw [Engine.unlessFault_absorb ha, Engine.finalize_absorb ha]

end OneEngine

/-- One byte fits below the length bound (R151, R171). -/
theorem room_for_byte {n : Nat} (h : n < 2 ^ 64 - 1) (b : Byte) : n + [b].length ≤ Config.lenMax := by
  rw [lenMax_eq, List.length_singleton]
  omega

/-- No byte fits at the length bound. -/
theorem no_room_for_byte {n : Nat} (h : n = 2 ^ 64 - 1) (b : Byte) : Config.lenMax < n + [b].length := by
  rw [lenMax_eq, List.length_singleton]
  omega

/-- Four bytes fit up to `2^64 - 5` (R152, R172). -/
theorem room_for_word {n : Nat} (h : n ≤ 2 ^ 64 - 5) (v : Word32) : n + (payloadBytes v).length ≤ Config.lenMax := by
  rw [lenMax_eq, length_payloadBytes]
  omega

/-- Above it they do not. -/
theorem no_room_for_word {n : Nat} (h : 2 ^ 64 - 5 < n) (v : Word32) :
    Config.lenMax < n + (payloadBytes v).length := by
  rw [lenMax_eq, length_payloadBytes]
  omega

/-! ### The commands of `E86` -/

/-- A command to `E86` leaves of it what its dispatch leaves, and everything else as before (R196). -/
theorem exec_onE86 {i : Instr} {s : State} {f : Engine86 → Engine86} {e : Engine86}
    (hx : exec i s = .next (s.onE86 f)) (he : s.e86.unlessFault f = e) : exec i s = .next { s with e86 := e } := by
  rw [hx, State.onE86, he]

/-- A command to `E86` in `FAULT` changes nothing (R184). -/
theorem exec_onE86_frozen {i : Instr} {s : State} {f : Engine86 → Engine86} (hx : exec i s = .next (s.onE86 f))
    (h : s.e86.phase = .fault) : exec i s = .next s :=
  exec_onE86 hx (Engine.unlessFault_frozen h f)

/-- `E86` decodes a full buffer as four words of four bytes (R54). -/
theorem block86_toList (h : Lanes86) (v : Vector Byte 16) :
    block86 h v.toList = round86 h (leWord 32 [v[0], v[1], v[2], v[3]]) (leWord 32 [v[4], v[5], v[6], v[7]])
      (leWord 32 [v[8], v[9], v[10], v[11]]) (leWord 32 [v[12], v[13], v[14], v[15]]) := by
  rw [toList_eq_ofFn]
  rfl

/-- Settles O16: `Engine.openMessage` in every phase but `FAULT`. -/
theorem initOpensMessage86 : Obligations.InitOpensMessage86 := fun seed _ =>
  ⟨decode_initWord .e86 seed, fun hrun => exec_onE86 rfl (Engine.unlessFault_running hrun _), exec_onE86_frozen rfl⟩

/-- Settles O17: the phase, then the length, then whether the byte is the last of its block. -/
theorem pushbPushesOneByte86 : Obligations.PushbPushesOneByte86 := by
  intro b s
  refine ⟨decode_pushbWord .e86 b, fun ha hl hfill => ?_, fun ha hl hfill => ?_, fun ha hl => ?_, fun h => ?_,
    exec_onE86_frozen rfl⟩
  · have hpush := Engine.unlessFault_push_fits (block := block86) ha (room_for_byte hl b)
    have hin : s.e86.fill.val + 1 < 16 := by omega
    exact exec_onE86 rfl (hpush.trans (Engine.pushByte_inside_add_one b hin))
  · have hpush := Engine.unlessFault_push_fits (block := block86) ha (room_for_byte hl b)
    dsimp only
    rw [← block86_toList]
    exact exec_onE86 rfl (hpush.trans (Engine.pushByte_last_at b hfill (by decide) rfl))
  · exact exec_onE86 rfl (Engine.unlessFault_push_over ha (no_room_for_byte hl b))
  · exact exec_onE86 rfl (Engine.unlessFault_push_outside h [b])

/-- Settles O18: the phase, then the length once for the four bytes, then one byte after another. -/
theorem pushwPushesFourBytes86 : Obligations.PushwPushesFourBytes86 := fun v _ =>
  ⟨decode_pushwWord .e86 v,
    fun ha hl => exec_onE86 rfl (Engine.unlessFault_push_fits ha (room_for_word hl v)),
    fun ha hl => exec_onE86 rfl (Engine.unlessFault_push_over ha (no_room_for_word hl v)),
    fun h => exec_onE86 rfl (Engine.unlessFault_push_outside h (payloadBytes v)),
    exec_onE86_frozen rfl⟩

/-- Settles O19: the tail step reads the first `fill` bytes of the buffer. -/
theorem finalLeavesDigest86 : Obligations.FinalLeavesDigest86 :=
  ⟨decode_final .e86, fun _ =>
    ⟨fun ha => exec_onE86 rfl (Engine.unlessFault_finalize_absorb ha digest86),
      fun h => exec_onE86 rfl (Engine.unlessFault_finalize_outside h digest86),
      exec_onE86_frozen rfl⟩⟩

/-! ### From `INIT.86` to `FINAL.86` -/

/-- Settles O20: `E86` follows the sequence by itself, from the empty message of `INIT.86` to the digest of `FINAL.86`. -/
theorem commandsComputeHash86 : Obligations.CommandsComputeHash86 := by
  intro seed is s hrun ho hl
  have hfit : (messageTo .e86 is).length ≤ Config.lenMax := hl
  have hdig := Engine.digested_foldl_afterInstr (i := .init86 seed) (f := .final86) hash128x86_eq rfl rfl rfl rfl hrun ho
    hfit
  obtain ⟨t, ht⟩ := execAll_isNext (.init86 seed :: is ++ [.final86]) s
  obtain ⟨_, h86, _⟩ := execAll_engines ht
  refine ⟨t, ht, ?_⟩
  rw [h86]
  exact hdig

end Sys2Proof.Machine
end

section
/-! PROOFS. The commands of `E64` (43_engine128_x64.md R170 to R174), one by one, and the run from an `INIT` to a `FINAL`. What
a dispatched command leaves of its engine is said above for every lane type; here it is placed in the state. -/

namespace Sys2Proof.Machine

/-! ### The commands of `E64` -/

/-- A command to `E64` leaves of it what its dispatch leaves, and everything else as before (R196). -/
theorem exec_onE64 {i : Instr} {s : State} {f : Engine64 → Engine64} {e : Engine64}
    (hx : exec i s = .next (s.onE64 f)) (he : s.e64.unlessFault f = e) : exec i s = .next { s with e64 := e } := by
  rw [hx, State.onE64, he]

/-- A command to `E64` in `FAULT` changes nothing (R184). -/
theorem exec_onE64_frozen {i : Instr} {s : State} {f : Engine64 → Engine64} (hx : exec i s = .next (s.onE64 f))
    (h : s.e64.phase = .fault) : exec i s = .next s :=
  exec_onE64 hx (Engine.unlessFault_frozen h f)

/-- `E64` decodes a full buffer as two words of eight bytes (R54). -/
theorem block64_toList (h : Lanes64) (v : Vector Byte 16) :
    block64 h v.toList = round64 h (leWord 64 [v[0], v[1], v[2], v[3], v[4], v[5], v[6], v[7]])
      (leWord 64 [v[8], v[9], v[10], v[11], v[12], v[13], v[14], v[15]]) := by
  rw [toList_eq_ofFn]
  rfl

/-- Settles O21: `Engine.openMessage` in every phase but `FAULT`. -/
theorem initOpensMessage64 : Obligations.InitOpensMessage64 := fun seed _ =>
  ⟨decode_initWord .e64 seed, fun hrun => exec_onE64 rfl (Engine.unlessFault_running hrun _), exec_onE64_frozen rfl⟩

/-- Settles O22: the phase, then the length, then whether the byte is the last of its block. -/
theorem pushbPushesOneByte64 : Obligations.PushbPushesOneByte64 := by
  intro b s
  refine ⟨decode_pushbWord .e64 b, fun ha hl hfill => ?_, fun ha hl hfill => ?_, fun ha hl => ?_, fun h => ?_,
    exec_onE64_frozen rfl⟩
  · have hpush := Engine.unlessFault_push_fits (block := block64) ha (room_for_byte hl b)
    have hin : s.e64.fill.val + 1 < 16 := by omega
    exact exec_onE64 rfl (hpush.trans (Engine.pushByte_inside_add_one b hin))
  · have hpush := Engine.unlessFault_push_fits (block := block64) ha (room_for_byte hl b)
    dsimp only
    rw [← block64_toList]
    exact exec_onE64 rfl (hpush.trans (Engine.pushByte_last_at b hfill (by decide) rfl))
  · exact exec_onE64 rfl (Engine.unlessFault_push_over ha (no_room_for_byte hl b))
  · exact exec_onE64 rfl (Engine.unlessFault_push_outside h [b])

/-- Settles O23: the phase, then the length once for the four bytes, then one byte after another. -/
theorem pushwPushesFourBytes64 : Obligations.PushwPushesFourBytes64 := fun v _ =>
  ⟨decode_pushwWord .e64 v,
    fun ha hl => exec_onE64 rfl (Engine.unlessFault_push_fits ha (room_for_word hl v)),
    fun ha hl => exec_onE64 rfl (Engine.unlessFault_push_over ha (no_room_for_word hl v)),
    fun h => exec_onE64 rfl (Engine.unlessFault_push_outside h (payloadBytes v)),
    exec_onE64_frozen rfl⟩

/-- Settles O24: the tail step reads the first `fill` bytes of the buffer. -/
theorem finalLeavesDigest64 : Obligations.FinalLeavesDigest64 :=
  ⟨decode_final .e64, fun _ =>
    ⟨fun ha => exec_onE64 rfl (Engine.unlessFault_finalize_absorb ha digest64),
      fun h => exec_onE64 rfl (Engine.unlessFault_finalize_outside h digest64),
      exec_onE64_frozen rfl⟩⟩

/-! ### From `INIT.64` to `FINAL.64` -/

/-- Settles O25: `E64` follows the sequence by itself, from the empty message of `INIT.64` to the digest of `FINAL.64`. -/
theorem commandsComputeHash64 : Obligations.CommandsComputeHash64 := by
  intro seed is s hrun ho hl
  have hfit : (messageTo .e64 is).length ≤ Config.lenMax := hl
  have hdig := Engine.digested_foldl_afterInstr (i := .init64 seed) (f := .final64) hash128x64_eq rfl rfl rfl rfl hrun ho
    hfit
  obtain ⟨t, ht⟩ := execAll_isNext (.init64 seed :: is ++ [.final64]) s
  obtain ⟨_, _, h64⟩ := execAll_engines ht
  refine ⟨t, ht, ?_⟩
  rw [h64]
  exact hdig

end Sys2Proof.Machine
end

section
/-! PROOFS. The command layer at the ports (44_command_layer.md R181, R183; 70_reset_and_hazards.md R232, R240): what a step does
at an edge with `rst = 0` in each case of the handshake, and the machine driven by a host that keeps each word until it is
accepted. -/

namespace Sys2Proof.Machine

/-! ### One edge -/

variable {s : State} {valid : Bool} {w : CmdWord} {rest : List HostAct}

/-- The host keeps its duty when no word waits or it presents the one that does (R232). -/
theorem State.breaksHandshake_eq_false :
    s.breaksHandshake valid w = false ↔ s.waiting = none ∨ (valid = true ∧ s.waiting = some w) := by
  unfold State.breaksHandshake
  cases s.waiting with
  | none => simp
  | some w' => simpa using fun _ => eq_comm

theorem State.nextAct_of_plan {a : HostAct} (h : s.plan = a :: rest) : s.nextAct = a := by
  rw [State.nextAct, h]

/-- A word presented with `cmd_ready = 1` takes effect at this edge. -/
theorem step_accept (hact : s.nextAct = .edge false true w) (hbusy : s.busy = 0)
    (hwait : s.waiting = none ∨ s.waiting = some w) : step s = runPort (.command w) s.advance.accept := by
  have hkeep : s.advance.breaksHandshake true w = false := State.breaksHandshake_eq_false.2 (by simpa using hwait)
  have hready : s.advance.cmdReady = true := by simp [State.cmdReady, hbusy]
  simp [step, fetch, hact, clockEdge, hkeep, hready]

/-- At an edge with `cmd_ready = 0` one cycle of the step in progress passes. -/
theorem step_stall (hact : s.nextAct = .edge false valid w) (hbusy : s.busy ≠ 0)
    (hwait : s.waiting = none ∨ (valid = true ∧ s.waiting = some w)) : step s = .next (s.advance.stall valid w) := by
  have hkeep : s.advance.breaksHandshake valid w = false := State.breaksHandshake_eq_false.2 hwait
  have hready : s.advance.cmdReady = false := by simp [State.cmdReady, hbusy]
  simp [step, fetch, hact, clockEdge, hkeep, hready]

/-- The state in which an accepted word takes effect, written out. -/
theorem State.accept_advance {a : HostAct} (h : s.plan = a :: rest) :
    s.advance.accept = { s with
      plan := rest, tick := s.tick + 1, busy := s.stalls.headD 0, stalls := s.stalls.tail
      afterReset := false, waiting := none } := by
  rw [State.accept, State.advance, h, List.tail_cons]

/-- Settles O7: the edge accepts the word, and the decoder names the instruction. -/
theorem stepRunsTheAcceptedCommand : Obligations.StepRunsTheAcceptedCommand := by
  intro s w rest i hplan hbusy hwait hd
  rw [step_accept (State.nextAct_of_plan hplan) hbusy hwait, State.accept_advance hplan, runPort, decodePort, hd]

/-- Settles O9: the edge accepts the word, and the decoder turns it down. -/
theorem stepTakesTheDecodeFault : Obligations.StepTakesTheDecodeFault := by
  intro s w rest T c hplan hbusy hwait hd
  rw [step_accept (State.nextAct_of_plan hplan) hbusy hwait, State.accept_advance hplan, runPort_of_decode_bad hd rfl]

/-! ### The edges of one word -/

/-- As many edges as the block is busy, the host keeping its pins: nothing changes but the handshake and the host's side. -/
theorem run_busy (hwait : s.waiting = none ∨ (valid = true ∧ s.waiting = some w))
    (hplan : s.plan = List.replicate s.busy (.edge false valid w) ++ rest) :
    ∃ (tick : Nat) (afterReset : Bool) (waiting : Option CmdWord),
      Host.Core.run core s.busy s = .next { s with
        plan := rest, busy := 0, tick := tick, afterReset := afterReset, waiting := waiting } ∧
      (waiting = none ∨ (valid = true ∧ waiting = some w)) := by
  generalize hb : s.busy = n at hplan ⊢
  induction n generalizing s with
  | zero =>
    refine ⟨s.tick, s.afterReset, s.waiting, ?_, hwait⟩
    have hrest : s.plan = rest := hplan
    have hs : s = { s with plan := rest, busy := 0 } := by rw [← hrest, ← hb]
    exact congrArg Host.Outcome.next hs
  | succ n ih =>
    rw [List.replicate_succ, List.cons_append] at hplan
    have hstep := step_stall (State.nextAct_of_plan hplan) (by omega) hwait
    rw [run_step hstep]
    refine ih (s := s.advance.stall valid w) ?_ ?_ ?_
    · cases valid <;> simp
    · simp [hb]
    · simp [hplan]

/-- The edges that present a word up to its acceptance: the word has its effect, and the block is busy for the next stall. -/
theorem run_word (hwait : s.waiting = none)
    (hplan : s.plan = List.replicate (s.busy + 1) (.edge false true w) ++ rest) :
    ∃ tick : Nat, Host.Core.run core (s.busy + 1) s =
      .next { s.accept.afterWord w with plan := rest, tick := tick } := by
  rw [List.replicate_succ', List.append_assoc, List.singleton_append] at hplan
  obtain ⟨tick, afterReset, waiting, hrun, hkeep⟩ := run_busy (.inl hwait) hplan
  refine ⟨tick + 1, ?_⟩
  rw [run_append hrun, run_step ((step_accept rfl rfl (by simpa using hkeep)).trans (runPort_command w _))]
  rfl

/-! ### The edges of a sequence of words -/

/-- The two states have the same engines. -/
def State.SameEngines (s t : State) : Prop := t.e32 = s.e32 ∧ t.e86 = s.e86 ∧ t.e64 = s.e64

/-- A word acts on the engines alone. -/
theorem State.SameEngines.afterWord {s t : State} (h : s.SameEngines t) (w : CmdWord) :
    (s.afterWord w).SameEngines (t.afterWord w) := by
  obtain ⟨h32, h86, h64⟩ := h
  exact ⟨congrArg (Engine.afterWord _ _ _ _ w) h32, congrArg (Engine.afterWord _ _ _ _ w) h86,
    congrArg (Engine.afterWord _ _ _ _ w) h64⟩

/-- The host's plan for a sequence of words, run from a state with the same engines as `v`. -/
theorem run_hostPlan {ws : List CmdWord} {s v u : State} (hsame : v.SameEngines s) (hwait : s.waiting = none)
    (hplan : s.plan = hostPlan ws s.busy s.stalls) (hrun : runWords ws v = .next u) :
    ∃ t : State, Host.Core.run core s.plan.length s = .next t ∧ u.SameEngines t ∧
      t.plan = [] ∧ t.waiting = none ∧ t.cmdReady = true ∧ t.pins = s.pins := by
  induction ws generalizing s v with
  | nil =>
    cases hrun
    have hwaits : s.plan = List.replicate s.busy (.edge false false 0#40) ++ [] := by rw [hplan, hostPlan, List.append_nil]
    obtain ⟨tick, afterReset, waiting, hrun, hkeep⟩ := run_busy (.inl hwait) hwaits
    rw [hplan, hostPlan, List.length_replicate]
    exact ⟨_, hrun, hsame, rfl, by simpa using hkeep, rfl, rfl⟩
  | cons w ws ih =>
    simp only [runWords, runPort_command] at hrun
    rw [hostPlan] at hplan
    obtain ⟨tick, hword⟩ := run_word hwait hplan
    rw [hplan, List.length_append, List.length_replicate, run_append hword]
    exact ih (s := { s.accept.afterWord w with plan := hostPlan ws (s.stalls.headD 0) s.stalls.tail, tick := tick })
      (hsame.afterWord w) rfl rfl hrun

/-- Settles O39, by induction on the words. -/
theorem handshakeRunsTheWordSequence : Obligations.HandshakeRunsTheWordSequence := by
  intro ws s u hwait hplan hrun
  obtain ⟨t, ht, ⟨h32, h86, h64⟩, hrest⟩ := run_hostPlan (v := s) ⟨rfl, rfl, rfl⟩ hwait hplan hrun
  exact ⟨t, ht, h32, h86, h64, hrest⟩

end Sys2Proof.Machine
end

section
/-! PROOFS. The rules of the whole machine (44_command_layer.md R184, R195, R196): an engine in `FAULT` is frozen, phases move by
the table, a word keeps to the engines it names. Each is said for one engine of any lane type, then for the three. -/

namespace Sys2Proof.Machine

section OneEngine

variable {L : Type} {B : Nat} [NeZero B] {en : EngineId} {init : Word32 → L} {block : L → List Byte → L}
  {digest : L → List Byte → Word64 → L} {i : Instr} {k : Kind} {w : CmdWord} {e e' : Engine L B}

/-! ### An engine in `FAULT` -/

/-- An engine in `FAULT` is left as it is by every word (R184). -/
theorem Engine.afterWord_frozen (h : e.phase = .fault) : e.afterWord en init block digest w = e := by
  unfold Engine.afterWord
  split
  next i _ =>
    rcases Engine.afterInstr_cases en init block digest i e with ⟨_, he⟩ | ⟨_, he⟩ | ⟨_, _, _, hrun, _⟩
    · exact he
    · exact he
    · exact absurd h hrun
  next T c _ => rw [Engine.takeFault_frozen h, ite_self]

/-! ### The phase table -/

omit [NeZero B] in
/-- The row `FAULT` of the table. -/
theorem Engine.movedBy_frozen (h : e.phase = .fault) (k : Kind) (n : Nat) : e.movedBy k n e := by
  simp [Engine.movedBy, transition, h]

omit [NeZero B] in
/-- An entry of another row, read off the table. -/
theorem Engine.movedBy_of_entry {n : Nat} {p : Phase} {c : Option Cause} (hrun : e.phase ≠ .fault)
    (hentry : transition e.phase k (e.len.toNat + n ≤ Config.lenMax) = (p, c)) (hp : e'.phase = p)
    (hc : e'.cause = if c = none then e.cause else c) : e.movedBy k n e' := by
  rw [Engine.movedBy, hentry]
  exact ⟨hp, hc, fun h => absurd h hrun⟩

omit [NeZero B] in
/-- An entry with a code: the engine takes that fault. -/
theorem Engine.movedBy_takeFault {n : Nat} {c : Cause} (hrun : e.phase ≠ .fault)
    (hentry : transition e.phase k (e.len.toNat + n ≤ Config.lenMax) = (.fault, some c)) :
    e.movedBy k n (e.takeFault c) :=
  Engine.movedBy_of_entry hrun hentry (Engine.takeFault_phase e c) (by simp [Engine.takeFault_running hrun])

/-- The converse of `Phase.ne_of_idle_or_done`. -/
theorem Phase.idle_or_done {p : Phase} (ha : p ≠ .absorb) (hf : p ≠ .fault) : p = .idle ∨ p = .done := by
  cases p <;> simp at ha hf ⊢

/-- The column `INIT`. -/
theorem Engine.movedBy_openMessage (hrun : e.phase ≠ .fault) (n : Nat) (h0 : L) :
    e.movedBy .init n (e.openMessage h0) := by
  refine Engine.movedBy_of_entry (p := .absorb) (c := none) hrun ?_ rfl rfl
  cases hp : e.phase with
  | fault => exact absurd hp hrun
  | idle | absorb | done => rfl

/-- The columns `PUSHB` and `PUSHW`. -/
theorem Engine.movedBy_push (hrun : e.phase ≠ .fault) (bs : List Byte) :
    e.movedBy .push bs.length (e.push block bs) := by
  rcases Engine.push_cases block bs e with ⟨hna, he⟩ | ⟨ha, hover, he⟩ | ⟨ha, hfit, he⟩ <;> rw [he]
  · refine Engine.movedBy_takeFault hrun ?_
    rcases Phase.idle_or_done hna hrun with hp | hp <;> rw [hp] <;> rfl
  · exact Engine.movedBy_takeFault hrun (by rw [ha, decide_eq_false (not_le.2 hover)]; rfl)
  · exact Engine.movedBy_of_entry (c := none) hrun (by rw [ha, decide_eq_true hfit]; rfl) (by simp [ha]) (by simp)

/-- The column `FINAL`. -/
theorem Engine.movedBy_finalize (hrun : e.phase ≠ .fault) (n : Nat) : e.movedBy .final n (e.finalize digest) := by
  rcases Engine.finalize_cases digest e with ⟨hna, he⟩ | ⟨ha, he⟩ <;> rw [he]
  · refine Engine.movedBy_takeFault hrun ?_
    rcases Phase.idle_or_done hna hrun with hp | hp <;> rw [hp] <;> rfl
  · exact Engine.movedBy_of_entry hrun (by rw [ha]; rfl) rfl rfl

theorem Engine.movedBy_applied (hrun : e.phase ≠ .fault) (seed : Word32) (bs : List Byte) :
    e.movedBy k bs.length (e.applied init block digest k seed bs) := by
  cases k with
  | init => exact Engine.movedBy_openMessage hrun bs.length (init seed)
  | push => exact Engine.movedBy_push hrun bs
  | final => exact Engine.movedBy_finalize hrun bs.length

/-- A command moves the engine it addresses by the table, and leaves any other. -/
theorem Engine.moves_afterInstr (hk : kindOf i = some k) (he : e' = e.afterInstr en init block digest i) :
    if i.engine = some en then e.movedBy k (pushedTo en i).length e' else e' = e := by
  subst he
  rcases Engine.afterInstr_cases en init block digest i e with ⟨ho, he⟩ | ⟨hf, he⟩ | ⟨k', hi, hk', hrun, he⟩
  · rw [if_neg ho, he]
  · rw [he]
    split
    · exact Engine.movedBy_frozen hf k _
    · rfl
  · obtain rfl : k = k' := Option.some.inj (hk.symm.trans hk')
    rw [if_pos hi, he]
    exact Engine.movedBy_applied hrun _ _

omit [NeZero B] in
/-- A decode fault moves an engine of its set that is not in `FAULT`, and no other (R202). -/
theorem Engine.moves_takeFault (hit : Bool) (c : Cause) (he : e' = if hit then e.takeFault c else e) :
    if hit = true ∧ e.phase ≠ .fault then e'.phase = .fault ∧ e'.cause = some c else e' = e := by
  subst he
  by_cases hf : e.phase = .fault
  · simp [hf]
  · cases hit <;> simp [hf, Engine.takeFault_running]

/-- An engine's own choice: the word's effect on it where the word names it, else the engine. -/
theorem Engine.ite_named :
    (if (targetOf w.eng).has en then e.afterWord en init block digest w else e) = e.afterWord en init block digest w := by
  split
  · rfl
  next h => rw [Engine.afterWord_other (by simpa using h)]

end OneEngine

/-! ### The three engines -/

/-- The two things a step that is no reset edge can do to the engines: nothing, or the effect of one word. -/
theorem step_engines_without_reset {s t : State} (h : step s = .next t)
    (hreset : ∀ (valid : Bool) (w : CmdWord), s.nextAct ≠ .edge true valid w) :
    s.SameEngines t ∨ ∃ w, (s.afterWord w).SameEngines t := by
  rcases step_cases h with ⟨valid, w, hact, _⟩ | ⟨_, _, _, rfl⟩ | ⟨_, _, _, _, rfl⟩ | ⟨w, _, _, _, hrun⟩ | ⟨p, hact, _⟩
  · exact absurd hact (hreset valid w)
  · exact .inl ⟨rfl, rfl, rfl⟩
  · exact .inl ⟨rfl, rfl, rfl⟩
  · rw [runPort_command] at hrun
    cases hrun
    exact .inr ⟨w, rfl, rfl, rfl⟩
  · rw [step_prim hact] at h
    cases h
    exact .inl ⟨rfl, rfl, rfl⟩

/-- Settles O44: a word leaves an engine in `FAULT`, and nothing else acts on the engines. -/
theorem faultedEngineIsFrozen : Obligations.FaultedEngineIsFrozen := by
  intro s t hstep hreset
  rcases step_engines_without_reset hstep hreset with ⟨h32, h86, h64⟩ | ⟨w, h32, h86, h64⟩
  · exact ⟨fun _ => h32, fun _ => h86, fun _ => h64⟩
  · exact ⟨fun hf => h32.trans (Engine.afterWord_frozen hf), fun hf => h86.trans (Engine.afterWord_frozen hf),
      fun hf => h64.trans (Engine.afterWord_frozen hf)⟩

/-- An instruction of no kind leaves the engines as they are. -/
theorem exec_sameEngines {i : Instr} {s t : State} (hk : kindOf i = none) (h : exec i s = .next t) :
    s.SameEngines t := by
  rcases exec_cases h with ⟨_, _, rfl | ⟨p, rfl⟩⟩ | ⟨k, hk', _⟩ | ⟨k, hk', _⟩ | ⟨k, hk', _⟩
  · exact ⟨rfl, rfl, rfl⟩
  · exact ⟨rfl, rfl, rfl⟩
  · simp [hk] at hk'
  · simp [hk] at hk'
  · simp [hk] at hk'

/-- Settles O45: the table column by column, for each engine by itself. -/
theorem phasesMoveByTheTable : Obligations.PhasesMoveByTheTable := by
  refine ⟨fun i k s t hk h => ?_, fun i s t hk h => exec_sameEngines hk h, fun T c s => ?_, fun s => ⟨rfl, rfl, rfl⟩⟩
  · obtain ⟨h32, h86, h64⟩ := exec_engines h
    exact ⟨Engine.moves_afterInstr hk h32, Engine.moves_afterInstr hk h86, Engine.moves_afterInstr hk h64⟩
  · exact ⟨Engine.moves_takeFault (T.has .e32) c (s.raiseFault_e32 T c),
      Engine.moves_takeFault (T.has .e86) c (s.raiseFault_e86 T c),
      Engine.moves_takeFault (T.has .e64) c (s.raiseFault_e64 T c)⟩

/-! ### The engines a word names -/

/-- The engine named by an `eng` below 3, as a number (R72). -/
theorem targetOf_of_toNat {w : CmdWord} {e : EngineId} (h : w.toNat / 2 ^ 34 % 4 = (engOf e).toNat) :
    targetOf w.eng = .one e :=
  targetOf_eq_one.2 (BitVec.eq_of_toNat_eq ((toNat_eng w).trans h))

/-- A word does nothing to the engines it does not name. -/
theorem State.afterWord_named (w : CmdWord) (s : State) :
    s.afterWord w = { s with
      e32 := if (targetOf w.eng).has .e32 then (s.afterWord w).e32 else s.e32
      e86 := if (targetOf w.eng).has .e86 then (s.afterWord w).e86 else s.e86
      e64 := if (targetOf w.eng).has .e64 then (s.afterWord w).e64 else s.e64 } := by
  simp only [State.afterWord, Engine.ite_named]

/-- What a word answers. -/
theorem eq_afterWord {w : CmdWord} {s t : State} (h : runPort (.command w) s = .next t) : t = s.afterWord w :=
  Host.Outcome.next.inj (h.symm.trans (runPort_command w s))

/-- A word with `eng = 3` that is no `NOP` is a decode fault of all three engines (R77). -/
theorem exists_runPort_raiseFault_all {w : CmdWord} (heng : w.toNat / 2 ^ 34 % 4 = 3) (hop : w.toNat / 2 ^ 36 ≠ 0)
    (s : State) : ∃ c, runPort (.command w) s = .next (s.raiseFault .all c) := by
  have hpos : 1 ≤ w.toNat / 2 ^ 36 := Nat.one_le_iff_ne_zero.2 hop
  obtain ⟨_, hillegal, hresEngine, _⟩ := reservedEncodingsRaiseTheirCause w s
  rcases Nat.lt_or_ge 4 (w.toNat / 2 ^ 36) with h5 | h4
  · exact ⟨_, hillegal h5 heng⟩
  · exact ⟨_, hresEngine hpos h4 heng⟩

theorem runPort_nop {w : CmdWord} (hop : w.toNat / 2 ^ 36 = 0) (s : State) : runPort (.command w) s = .next s := by
  have hw : w.toNat < 2 ^ 36 := (Nat.div_eq_zero_iff_lt (by decide)).1 hop
  obtain ⟨hnop, _⟩ := nopChangesNothing
  exact (hnop w s hw).2

/-- Settles O46: `State.afterWord` acts on each engine by itself, and leaves the engines the word does not name. -/
theorem wordsKeepToTheirEngine : Obligations.WordsKeepToTheirEngine := by
  intro w s t h
  obtain rfl := eq_afterWord h
  have hnamed := s.afterWord_named w
  refine ⟨fun he => ⟨hnamed.trans (by rw [targetOf_of_toNat (e := .e32) he]; rfl), fun s' t' hs h' => ?_⟩,
    fun he => ⟨hnamed.trans (by rw [targetOf_of_toNat (e := .e86) he]; rfl), fun s' t' hs h' => ?_⟩,
    fun he => ⟨hnamed.trans (by rw [targetOf_of_toNat (e := .e64) he]; rfl), fun s' t' hs h' => ?_⟩,
    fun he hop => ?_, fun hop => ?_⟩
  · exact (congrArg State.e32 (eq_afterWord h')).trans (congrArg (Engine.afterWord _ _ _ _ w) hs)
  · exact (congrArg State.e86 (eq_afterWord h')).trans (congrArg (Engine.afterWord _ _ _ _ w) hs)
  · exact (congrArg State.e64 (eq_afterWord h')).trans (congrArg (Engine.afterWord _ _ _ _ w) hs)
  · obtain ⟨c, hc⟩ := exists_runPort_raiseFault_all he hop s
    exact ⟨c, Host.Outcome.next.inj (h.symm.trans hc)⟩
  · exact Host.Outcome.next.inj (h.symm.trans (runPort_nop hop s))

end Sys2Proof.Machine
end

section
/-! PROOFS. A `PUSHW` and the four `PUSHB`s of its bytes (44_command_layer.md R198): what one-byte pushes, one after another, leave
of an engine of any lane type in each of its cases, and the comparison with the one push of all the bytes. -/

namespace Sys2Proof.Machine

section OneEngine

variable {L : Type} {B : Nat} [NeZero B] {block : L → List Byte → L} {e : Engine L B} {bs : List Byte}

/-! ### One-byte pushes one after another -/

/-- A push outside `ABSORB` takes `PUSH_PHASE`, which in `FAULT` is no change (R184, R207). -/
theorem Engine.unlessFault_push_closed (h : e.phase ≠ .absorb) (bs : List Byte) :
    e.unlessFault (Engine.push block bs) = e.takeFault .pushPhase := by
  by_cases hf : e.phase = .fault
  · rw [Engine.unlessFault_frozen hf, Engine.takeFault_frozen hf]
  · rw [Engine.unlessFault_running hf, Engine.push, if_pos h]

/-- An engine after a `PUSHB` of each of the bytes, the first first. `execAll_pushbs` ties it to `execAll`. -/
def Engine.pushEach (block : L → List Byte → L) (bs : List Byte) (e : Engine L B) : Engine L B :=
  bs.foldl (fun e b => e.unlessFault (Engine.push block [b])) e

theorem Engine.pushEach_cons (b : Byte) (bs : List Byte) :
    e.pushEach block (b :: bs) = (e.unlessFault (Engine.push block [b])).pushEach block bs := rfl

theorem Engine.pushEach_frozen (h : e.phase = .fault) (bs : List Byte) : e.pushEach block bs = e := by
  induction bs with
  | nil => rfl
  | cons b bs ih => rw [Engine.pushEach_cons, Engine.unlessFault_frozen h, ih]

/-- Outside `ABSORB` the first byte takes `PUSH_PHASE`, and the others find the engine in `FAULT`. -/
theorem Engine.pushEach_closed (h : e.phase ≠ .absorb) (hbs : bs ≠ []) :
    e.pushEach block bs = e.takeFault .pushPhase := by
  cases bs with
  | nil => exact absurd rfl hbs
  | cons b bs =>
    rw [Engine.pushEach_cons, Engine.unlessFault_push_closed h, Engine.pushEach_frozen (Engine.takeFault_phase e _)]

/-- With room for one byte the first is pushed. -/
theorem Engine.pushEach_cons_fits (ha : e.phase = .absorb) (hl : e.len.toNat + 1 ≤ Config.lenMax) (b : Byte) :
    e.pushEach block (b :: bs) = (e.pushByte block b).pushEach block bs := by
  have hfit : e.len.toNat + [b].length ≤ Config.lenMax := hl
  rw [Engine.pushEach_cons, Engine.unlessFault_push_fits ha hfit]
  rfl

/-- With room for all the bytes they are all pushed. -/
theorem Engine.pushEach_fits (ha : e.phase = .absorb) (hl : e.len.toNat + bs.length ≤ Config.lenMax) :
    e.pushEach block bs = e.pushBytes block bs := by
  induction bs generalizing e with
  | nil => rfl
  | cons b bs ih =>
    rw [List.length_cons] at hl
    have hlen := Engine.toNat_pushByte_len (e := e) block b (by omega)
    rw [Engine.pushEach_cons_fits ha (by omega), Engine.pushBytes_cons, ih (by simpa using ha) (by omega)]

/-- Without that room the bytes there is room for are pushed, and the next takes `LEN_OVERFLOW` (R208). -/
theorem Engine.pushEach_over (ha : e.phase = .absorb) (hl : Config.lenMax < e.len.toNat + bs.length) :
    e.pushEach block bs = (e.pushBytes block (bs.take (Config.lenMax - e.len.toNat))).takeFault .lenOverflow := by
  have hmax : e.len.toNat ≤ Config.lenMax := by
    have := e.len.isLt
    rw [lenMax_eq]
    omega
  induction bs generalizing e with
  | nil => exact absurd hl (not_lt.2 hmax)
  | cons b bs ih =>
    rw [List.length_cons] at hl
    by_cases hroom : e.len.toNat + 1 ≤ Config.lenMax
    · have hlen := Engine.toNat_pushByte_len (e := e) block b hroom
      have hrest : Config.lenMax - e.len.toNat = Config.lenMax - (e.pushByte block b).len.toNat + 1 := by omega
      rw [Engine.pushEach_cons_fits ha hroom, ih (by simpa using ha) (by omega) (by omega), hrest, List.take_succ_cons,
        Engine.pushBytes_cons]
    · have hover : Config.lenMax < e.len.toNat + [b].length := not_le.1 hroom
      have hfull : Config.lenMax - e.len.toNat = 0 := by omega
      rw [hfull, List.take_zero, Engine.pushBytes_nil, Engine.takeFault_running (by simp [ha]), Engine.pushEach_cons,
        Engine.unlessFault_push_over ha hover, Engine.pushEach_frozen rfl]

/-! ### The commands of one engine -/

-- `put` places the engine in the state, `pushb` and `pushw` are its commands.
variable {put : Engine L B → State} {pushb : Byte → Instr} {pushw : Instr} {v : Word32}
  (hb : ∀ b e, exec (pushb b) (put e) = .next (put (e.unlessFault (Engine.push block [b]))))
  (hw : exec pushw (put e) = .next (put (e.unlessFault (Engine.push block (payloadBytes v)))))

include hb in
theorem execAll_pushbs (bs : List Byte) (e : Engine L B) :
    execAll (bs.map pushb) (put e) = .next (put (e.pushEach block bs)) := by
  induction bs generalizing e with
  | nil => rfl
  | cons b bs ih => simp only [List.map_cons, execAll, hb, ih, Engine.pushEach_cons]

include hb hw in
/-- Outside `ABSORB`, or with room for four bytes, the `PUSHW` answers what the four `PUSHB`s answer. -/
theorem exec_pushw_eq_execAll (h : e.phase ≠ .absorb ∨ e.len.toNat ≤ 2 ^ 64 - 5) :
    exec pushw (put e) = execAll ((payloadBytes v).map pushb) (put e) := by
  rw [hw, execAll_pushbs hb]
  by_cases ha : e.phase = .absorb
  · have hfit := room_for_word (h.resolve_left (not_not.2 ha)) v
    rw [Engine.unlessFault_push_fits ha hfit, Engine.pushEach_fits ha hfit]
  · have hne : payloadBytes v ≠ [] := List.cons_ne_nil _ _
    rw [Engine.unlessFault_push_closed ha, Engine.pushEach_closed ha hne]

include hb hw in
/-- Without that room the `PUSHW` pushes nothing, and the four `PUSHB`s push the bytes there is room for. -/
theorem exec_pushw_and_execAll_over (ha : e.phase = .absorb) (hl : 2 ^ 64 - 5 < e.len.toNat) :
    exec pushw (put e) = .next (put { e with phase := .fault, cause := some .lenOverflow }) ∧
    2 ^ 64 - 1 - e.len.toNat ≤ 3 ∧
    execAll ((payloadBytes v).map pushb) (put e) = .next (put {
      e.pushBytes block ((payloadBytes v).take (2 ^ 64 - 1 - e.len.toNat)) with
        phase := .fault, cause := some .lenOverflow }) := by
  have hover := no_room_for_word hl v
  refine ⟨by rw [hw, Engine.unlessFault_push_over ha hover], by omega, ?_⟩
  rw [execAll_pushbs hb, Engine.pushEach_over ha hover, Engine.takeFault_running (by simp [ha])]
  rfl

end OneEngine

/-- Settles O48: one comparison for an engine of any lane type, at the three engines. -/
theorem pushwEqualsFourPushbs : Obligations.PushwEqualsFourPushbs := fun _ s =>
  ⟨exec_pushw_eq_execAll (put := fun e => { s with e32 := e }) (pushb := .pushb32) (fun _ _ => rfl) rfl,
    exec_pushw_and_execAll_over (put := fun e => { s with e32 := e }) (pushb := .pushb32) (fun _ _ => rfl) rfl,
    exec_pushw_eq_execAll (put := fun e => { s with e86 := e }) (pushb := .pushb86) (fun _ _ => rfl) rfl,
    exec_pushw_and_execAll_over (put := fun e => { s with e86 := e }) (pushb := .pushb86) (fun _ _ => rfl) rfl,
    exec_pushw_eq_execAll (put := fun e => { s with e64 := e }) (pushb := .pushb64) (fun _ _ => rfl) rfl,
    exec_pushw_and_execAll_over (put := fun e => { s with e64 := e }) (pushb := .pushb64) (fun _ _ => rfl) rfl⟩

end Sys2Proof.Machine
end

section
/-! PROOFS. Trap entry (60_exceptions.md R202): what `raise Fault(T, c)` writes in one engine, for an engine of any lane type, and
at the three engines of the state. -/

namespace Sys2Proof.Machine

/-- An engine takes the phase and the cause where it is hit and not in `FAULT`; otherwise it is left as it is. -/
theorem Engine.ite_takeFault_eq {L : Type} {B : Nat} (hit : Bool) (c : Cause) (e : Engine L B) :
    (if hit then e.takeFault c else e) =
      if hit ∧ e.phase ≠ .fault then { e with phase := .fault, cause := some c } else e := by
  cases hit with
  | false => simp
  | true =>
    by_cases hf : e.phase = .fault
    · simp [hf]
    · simp [hf, Engine.takeFault_running]

/-- Settles O27: one engine's trap entry, at the three engines; no other field of the state is written. -/
theorem raisingAFaultWritesPhaseAndCause : Obligations.RaisingAFaultWritesPhaseAndCause := fun T c s =>
  ⟨rfl, Engine.ite_takeFault_eq (T.has .e32) c s.e32, Engine.ite_takeFault_eq (T.has .e86) c s.e86,
    Engine.ite_takeFault_eq (T.has .e64) c s.e64⟩

end Sys2Proof.Machine
end

section
/-! PROOFS. Acceptance, refusal and waiting (70_reset_and_hazards.md R232, R236, R240): what a clock edge brings in each case of
the handshake, said for `clockEdge`, then for the step whose next action is that edge. -/

namespace Sys2Proof.Machine

variable {s s' : State} {rst valid : Bool} {w : CmdWord} {p : PortWord} {r : Refusal}

/-! ### What an edge brings -/

/-- The host breaks its duty when a word waits and it withdraws or changes it (R232). -/
theorem State.breaksHandshake_eq_true :
    s.breaksHandshake valid w = true ↔ ∃ w', s.waiting = some w' ∧ (valid = false ∨ w ≠ w') := by
  unfold State.breaksHandshake
  cases s.waiting with
  | none => simp
  | some w' => cases valid <;> simp

/-- An edge runs the presented word, with `rst = 0`, `cmd_ready = 1` and the host's duty kept, and nothing else. -/
theorem clockEdge_eq_run :
    clockEdge rst valid w s = .run p s' ↔
      rst = false ∧ valid = true ∧ s.cmdReady = true ∧ s.breaksHandshake valid w = false ∧
        p = .command w ∧ s' = s.accept := by
  unfold clockEdge
  split_ifs with hreset hbroken hready hvalid
  · simp [hreset]
  · simp [hbroken]
  · subst hvalid
    simp [hreset, hbroken, hready, @eq_comm _ p, @eq_comm _ s']
  · simp [hvalid]
  · simp [hready]

/-- An edge is refused for a broken handshake, and for nothing else. -/
theorem clockEdge_eq_refuse :
    clockEdge rst valid w s = .refuse r ↔
      rst = false ∧ s.breaksHandshake valid w = true ∧ r = .hostBrokeHandshake := by
  unfold clockEdge
  split_ifs with hreset hbroken
  · simp [hreset]
  · simp [hreset, hbroken, @eq_comm _ r]
  all_goals simp [hbroken]

theorem fetch_edge (hact : s.nextAct = .edge rst valid w) : fetch s = clockEdge rst valid w s.advance := by
  rw [fetch, hact]

theorem fetch_prim {q : PrimPins} (hact : s.nextAct = .prim q) : fetch s = .run (.primitive q) s.advance := by
  rw [fetch, hact]

/-! ### Acceptance -/

/-- Settles O35: of the host's actions only an edge runs a command word, and `clockEdge_eq_run` says when. -/
theorem wordIsAcceptedExactlyAtTheHandshake : Obligations.WordIsAcceptedExactlyAtTheHandshake := by
  intro s w
  cases hact : s.nextAct with
  | prim q => simp [fetch_prim hact]
  | edge rst valid v =>
    have hready : s.advance.cmdReady = s.cmdReady := rfl
    simp only [fetch_edge hact, clockEdge_eq_run, State.breaksHandshake_eq_false, hready, State.advance_waiting]
    constructor
    · rintro ⟨_, rfl, rfl, hr, hkeep, ⟨⟩, -⟩
      exact ⟨rfl, hr, by simpa using hkeep⟩
    · rintro ⟨⟨⟩, hr, hkeep⟩
      exact ⟨_, rfl, rfl, hr, by simpa using hkeep, rfl, rfl⟩

/-- Settles O34: the edge is held or stalls. -/
theorem nothingChangesWithoutAcceptance : Obligations.NothingChangesWithoutAcceptance := by
  intro s t valid w hact hidle hstep
  rcases step_cases hstep with ⟨_, _, hreset, _⟩ | ⟨_, _, _, rfl⟩ | ⟨_, _, _, _, rfl⟩ | ⟨_, hword, hready, _⟩ | ⟨_, hprim, _⟩
  · cases hact.symm.trans hreset
  · exact ⟨rfl, rfl, rfl⟩
  · exact ⟨rfl, rfl, rfl⟩
  · cases hact.symm.trans hword
    exact absurd (beq_iff_eq.1 hready) (hidle.resolve_left Bool.noConfusion)
  · cases hact.symm.trans hprim

/-! ### Refusal -/

/-- A step is refused by what is fetched alone: every word on a port has a next state (R192). -/
theorem step_eq_refused : step s = .refused r ↔ fetch s = .refuse r := by
  cases hf : fetch s with
  | run p s' =>
    obtain ⟨t, ht⟩ := runPort_isNext p s'
    simp [step, hf, ht]
  | quiet s' => simp [step, hf]
  | refuse r' => simp [step, hf]

/-- Settles O36: a change of the pins is never refused, and an edge by `clockEdge_eq_refuse`. -/
theorem onlyABrokenHandshakeIsRefused : Obligations.OnlyABrokenHandshakeIsRefused := by
  intro s r
  rw [step_eq_refused]
  cases hact : s.nextAct with
  | prim q => simp [fetch_prim hact]
  | edge rst valid w =>
    rw [fetch_edge hact, clockEdge_eq_refuse, State.breaksHandshake_eq_true, State.advance_waiting]
    constructor
    · rintro ⟨rfl, ⟨w', hwait, hbroken⟩, rfl⟩
      exact ⟨rfl, valid, w, w', rfl, hwait, hbroken⟩
    · rintro ⟨rfl, _, _, w', ⟨⟩, hwait, hbroken⟩
      exact ⟨rfl, ⟨w', hwait, hbroken⟩, rfl⟩

/-! ### A host that presents nothing -/

/-- At the end of its plan, with no word waiting, the host presents nothing (log entry 4). -/
theorem State.nextAct_of_plan_nil (hplan : s.plan = []) (hwait : s.waiting = none) :
    s.nextAct = .edge false false 0#40 := by
  rw [State.nextAct, hplan, hwait]
  rfl

/-- Settles O37, by induction on the edges the step in progress still takes. -/
theorem cmdReadyReturns : Obligations.CmdReadyReturns := by
  intro s hplan hwait
  generalize hb : s.busy = n
  induction n generalizing s with
  | zero => exact ⟨s, rfl, by simp [State.cmdReady, hb], rfl, rfl, rfl⟩
  | succ n ih =>
    have hstep := step_stall (State.nextAct_of_plan_nil hplan hwait) (by omega) (.inl hwait)
    obtain ⟨t, hrun, hrest⟩ := ih (s.advance.stall false 0#40) (by simp [hplan]) rfl (by simp [hb])
    exact ⟨t, (run_step hstep n).trans hrun, hrest⟩

end Sys2Proof.Machine
end
